-- ==== Sys2Proof/Word.lean ====
section
/-! DEFINITION. The words of the EPI: 32-bit words, bytes and one-bit levels (00_scope.md R10, R11). -/

namespace Sys2Proof

/-- A 32-bit word: a register, an op-memory word, a microsecond amount (R10). -/
abbrev Word := BitVec 32

/-- A byte: 8 bits (R10). -/
abbrev Byte := BitVec 8

/-- A one-bit register or a line level. -/
abbrev Bit := BitVec 1

end Sys2Proof
end

