-- ==== Sys2Proof/Config.lean ====
section
/-! DEFINITION. What one EPI fixes (00_scope.md R10, R103) and the values the spec leaves free. -/

namespace Sys2Proof.Config

/-- The parameters of one EPI (R10). WIRE_FORMAT is OPEN and not modelled (D50); ENV is `freeDraw` below. -/
structure Params where
  /-- OPMEM_WORDS, the number of words of op memory. -/
  opmemWords : Nat
  /-- DC_CMD_LEVEL, the DC level that selects "command". -/
  dcCmdLevel : Bit
  /-- SYNC_STAGES, the flip-flops of the busy synchronizer; no rule of the transaction model depends on it. -/
  syncStages : Nat
deriving DecidableEq, Repr, Inhabited

/-- The defaults of R10. -/
def Params.standard : Params := { opmemWords := 16384, dcCmdLevel := 0, syncStages := 2 }

/-- The ranges R10 gives the parameters. -/
abbrev Params.valid (p : Params) : Prop :=
  1 ≤ p.opmemWords ∧ p.opmemWords ≤ 16384 ∧ 2 ≤ p.syncStages

/-- COUNT_MAX = 2^20 - 1, the largest byte count an op carries (R10, R103). -/
def countMax : Nat := 1048575

/-- OPMEM_BASE, the host offset of op-memory word 0 (R13, R70). -/
def opmemBase : Nat := 0x10000

/-- The size in bytes of the host address space (R70). -/
def hostSpace : Nat := 0x20000

/-- One draw of the oracle ENV (R10, R14): whether the action fails, and the busy level a POLL would return.
An action reads only the part it can be answered with. -/
structure Draw where
  fails : Bool
  level : Bit
deriving DecidableEq, Repr, Inhabited

/-- ENV (R10, D46): the environment's answer to the n-th draw, where the state's script gives none. Free. -/
opaque freeDraw : Nat → Draw

/-- The n-th free level: DC_OUT after a reset (U1), BUSY_SYNC after a reset and at a LINES read (U2). Free. -/
opaque freeLevel : Nat → Bit

/-- The byte at host offset `a` after the n-th power-on, until something is written there (U3). Free. -/
opaque powerOnByte : Nat → Nat → Byte

end Sys2Proof.Config
end

