-- ==== Sys2Proof/Syntax.lean ====
section
/-! DEFINITION. The ops of the EPI (30_encoding.md R107), one constructor per row of the opcode table. -/

namespace Sys2Proof

/-- An op with its operands. A byte list is the op's payload P, and its length is N = COUNT (R103, R104). -/
inductive Instr where
  /-- END (41_sequencer.md R145). -/
  | endOp
  /-- RESET with ASSERT_US and SETTLE_US (43_reset_timer.md R181). -/
  | reset (assertUs settleUs : Word)
  /-- CMD with its command byte (42_framer.md R163). -/
  | cmd (code : Byte)
  /-- DATA with its payload (42_framer.md R164). -/
  | data (payload : List Byte)
  /-- CMD_DATA with its command byte and payload (42_framer.md R165). -/
  | cmdData (code : Byte) (payload : List Byte)
  /-- FILL with the byte to repeat and the number of repetitions (45_frame_writer.md R223). -/
  | fill (value : Byte) (count : BitVec 20)
  /-- FRAME with its command byte and pixel buffer (45_frame_writer.md R224). -/
  | frame (code : Byte) (payload : List Byte)
  /-- WAIT with the busy level that means idle (44_busy_sync.md R203). -/
  | wait (idle : Bit)
  /-- SETCFG with the flags and the three configuration words (41_sequencer.md R146). -/
  | setcfg (perByte invert expand : Bit) (frameLen pollInterval byteGap : Word)
deriving DecidableEq, Repr

end Sys2Proof
end

