-- ==== Sys2Proof/WellFormed.lean ====
section
/-! DEFINITION. Which ops an encoding can carry: a payload of at most COUNT_MAX bytes (30_encoding.md R103). -/

namespace Sys2Proof

/-- The payload bytes an op carries (R104). -/
def Instr.payload : Instr → List Byte
  | .data p => p
  | .cmdData _ p => p
  | .frame _ p => p
  | .endOp => []
  | .reset _ _ => []
  | .cmd _ => []
  | .fill _ _ => []
  | .wait _ => []
  | .setcfg _ _ _ _ _ _ => []

/-- N ranges from 0 to COUNT_MAX; a longer stream is sent as several ops (R103). Every other operand is as wide as
its field, so nothing else can be ill-formed. -/
def Instr.wellFormed (i : Instr) : Bool := decide (i.payload.length ≤ Config.countMax)

end Sys2Proof
end

