-- ==== Sys2Proof/Decode.lean ====
section
/-! DEFINITION. The decoder and the encoder of EPI-op-1 (30_encoding.md R100 to R112) and the pseudo-ops (R114). -/

namespace Sys2Proof

/-! ### Fields of the header word (R101) -/

/-- OPC, bits 31:28. -/
def headerOpc (h : Word) : BitVec 4 := h.extractLsb' 28 4

/-- CODE, bits 27:20. -/
def headerCode (h : Word) : Byte := h.extractLsb' 20 8

/-- COUNT, bits 19:0. -/
def headerCount (h : Word) : BitVec 20 := h.extractLsb' 0 20

/-- `(OPC << 28) | (CODE << 20) | COUNT` (R101). -/
def headerWord (opc : BitVec 4) (code : Byte) (count : BitVec 20) : Word := opc ++ code ++ count

/-- ceil4(n) = (n + 3) div 4 (00_scope.md R11). -/
def ceil4 (n : Nat) : Nat := (n + 3) / 4

/-! ### The opcode map (R107) -/

/-- The rows of the opcode map, without operands. -/
inductive Opcode where
  | endOp | reset | cmd | data | cmdData | fill | frame | wait | setcfg
deriving DecidableEq, Repr

/-- The rows in the order of R107. -/
def Opcode.all : List Opcode := [.endOp, .reset, .cmd, .data, .cmdData, .fill, .frame, .wait, .setcfg]

/-- The OPC column of R107. -/
def Opcode.opc : Opcode → BitVec 4
  | .endOp => 0x0
  | .reset => 0x1
  | .cmd => 0x2
  | .data => 0x3
  | .cmdData => 0x4
  | .fill => 0x5
  | .frame => 0x6
  | .wait => 0x7
  | .setcfg => 0x8

/-- The match column of R107. -/
def Opcode.pattern : Opcode → Word
  | .endOp => 0x00000000
  | .reset => 0x10000000
  | .cmd => 0x20000000
  | .data => 0x30000000
  | .cmdData => 0x40000000
  | .fill => 0x50000000
  | .frame => 0x60000000
  | .wait => 0x70000000
  | .setcfg => 0x80000000

/-- The mask column of R107. -/
def Opcode.mask : Opcode → Word
  | .endOp => 0xFFFFFFFF
  | .reset => 0xFFFFFFFF
  | .cmd => 0xF00FFFFF
  | .data => 0xFFF00000
  | .cmdData => 0xF0000000
  | .fill => 0xF0000000
  | .frame => 0xF0000000
  | .wait => 0xFFFFFFFE
  | .setcfg => 0xFFFFFFF8

/-- The header bits that must be zero: `mask AND 0x0FFFFFFF` (R111). -/
def Opcode.mustBeZero (o : Opcode) : Word := o.mask &&& 0x0FFFFFFF

/-- The row an OPC names; 0x9 to 0xF are reserved (R109). -/
def Opcode.ofOpc (v : BitVec 4) : Option Opcode := Opcode.all.find? (fun o => o.opc = v)

/-- How many extension words follow the header (R105, R106). -/
def Opcode.extensionWords : Opcode → Nat
  | .reset => 2
  | .setcfg => 3
  | .endOp => 0
  | .cmd => 0
  | .data => 0
  | .cmdData => 0
  | .fill => 0
  | .frame => 0
  | .wait => 0

/-- How many payload words follow, for a COUNT field (R106). -/
def Opcode.payloadWords (count : BitVec 20) : Opcode → Nat
  | .data => ceil4 count.toNat
  | .cmdData => ceil4 count.toNat
  | .frame => ceil4 count.toNat
  | .endOp => 0
  | .reset => 0
  | .cmd => 0
  | .fill => 0
  | .wait => 0
  | .setcfg => 0

/-- size(op) in words, a function of the header alone (R106). -/
def Opcode.size (o : Opcode) (count : BitVec 20) : Nat := 1 + o.extensionWords + o.payloadWords count

/-! ### Operands -/

/-- Byte `j` of a word, the least significant first (20_memory.md R78). -/
def wordByte (w : Word) (j : Nat) : Byte := w.extractLsb' (8 * j) 8

/-- Payload bytes `k` to `k + n - 1`, where `word 0` is the header (R104). -/
def payloadBytes (word : Nat → Word) : Nat → Nat → List Byte
  | 0, _ => []
  | n + 1, k => wordByte (word (1 + k / 4)) (k % 4) :: payloadBytes word n (k + 1)

/-- The op a header of row `o` stands for, its operands read from the words after it (R102 to R105). -/
def Opcode.operands (o : Opcode) (word : Nat → Word) : Instr :=
  let h := word 0
  let code := headerCode h
  let count := headerCount h
  let payload := payloadBytes word count.toNat 0
  match o with
  | .endOp => .endOp
  | .reset => .reset (word 1) (word 2)
  | .cmd => .cmd code
  | .data => .data payload
  | .cmdData => .cmdData code payload
  | .fill => .fill code count
  | .frame => .frame code payload
  | .wait => .wait (count.extractLsb' 0 1)
  | .setcfg =>
    .setcfg (count.extractLsb' 0 1) (count.extractLsb' 1 1) (count.extractLsb' 2 1) (word 1) (word 2) (word 3)

/-! ### Decode (R111) -/

/-- The four ways decode fails, in the order it checks them (R111, 60_exceptions.md R258). -/
inductive DecodeError where
  /-- The header is at or past the end of op memory: STREAM_OVERRUN. -/
  | headerPastEnd
  /-- OPC is 0x9 to 0xF: ILLEGAL_OP (R109). -/
  | reservedOpcode
  /-- A must-be-zero bit is set: ILLEGAL_OP (R108). -/
  | mustBeZero
  /-- The extension or payload words pass the end of op memory: STREAM_OVERRUN. -/
  | wordsPastEnd
deriving DecidableEq, Repr

/-- Decode(), over the `avail` words from PC to the end of op memory, `word k` being the k-th of them (R111).
`PC + n > OPMEM_WORDS` is `avail < n`, with no wrap-around. -/
def decode (avail : Nat) (word : Nat → Word) : Except DecodeError Instr :=
  if avail = 0 then .error .headerPastEnd
  else match Opcode.ofOpc (headerOpc (word 0)) with
    | none => .error .reservedOpcode
    | some o =>
      if word 0 &&& o.mustBeZero ≠ 0 then .error .mustBeZero
      else if avail < o.size (headerCount (word 0)) then .error .wordsPastEnd
      else .ok (o.operands word)

/-- Decode of a list of words, the header first: total on any list. -/
def decodeWords (ws : List Word) : Except DecodeError Instr := decode ws.length (fun k => ws.getD k 0)

/-! ### Encode -/

/-- The row of an op. -/
def Instr.opcode : Instr → Opcode
  | .endOp => .endOp
  | .reset _ _ => .reset
  | .cmd _ => .cmd
  | .data _ => .data
  | .cmdData _ _ => .cmdData
  | .fill _ _ => .fill
  | .frame _ _ => .frame
  | .wait _ => .wait
  | .setcfg _ _ _ _ _ _ => .setcfg

/-- The CODE field of an op's header, zero where it must be (R101, R107). -/
def Instr.codeField : Instr → Byte
  | .cmd c => c
  | .cmdData c _ => c
  | .fill v _ => v
  | .frame c _ => c
  | .endOp => 0
  | .reset _ _ => 0
  | .data _ => 0
  | .wait _ => 0
  | .setcfg _ _ _ _ _ _ => 0

/-- The COUNT field of an op's header: byte count, repetitions or flags (R103, R105). -/
def Instr.countField : Instr → BitVec 20
  | .data p => BitVec.ofNat 20 p.length
  | .cmdData _ p => BitVec.ofNat 20 p.length
  | .frame _ p => BitVec.ofNat 20 p.length
  | .fill _ n => n
  | .wait idle => 0#19 ++ idle
  | .setcfg perByte invert expand _ _ _ => 0#17 ++ expand ++ invert ++ perByte
  | .endOp => 0
  | .reset _ _ => 0
  | .cmd _ => 0

/-- The extension words of an op, in order (R105). -/
def Instr.extension : Instr → List Word
  | .reset a s => [a, s]
  | .setcfg _ _ _ l p g => [l, p, g]
  | .endOp => []
  | .cmd _ => []
  | .data _ => []
  | .cmdData _ _ => []
  | .fill _ _ => []
  | .frame _ _ => []
  | .wait _ => []

/-- Payload packing, little-endian, pad bytes 0 (R104, R113). -/
def packBytes : List Byte → List Word
  | [] => []
  | [a] => [0#24 ++ a]
  | [a, b] => [0#16 ++ b ++ a]
  | [a, b, c] => [0#8 ++ c ++ b ++ a]
  | a :: b :: c :: d :: rest => (d ++ c ++ b ++ a) :: packBytes rest

/-- The words of an op: header, extension words, payload words (R100). -/
def encode (i : Instr) : List Word :=
  headerWord i.opcode.opc i.codeField i.countField :: (i.extension ++ packBytes i.payload)

/-- size(op) of an op (R106). -/
def Instr.size (i : Instr) : Nat := i.opcode.size i.countField

/-- The words of an op stream (R113). -/
def assemble (ops : List Instr) : List Word := ops.flatMap encode

/-! ### Pseudo-ops (R114): they have no encoding of their own -/

/-- `display <refresh_code>, <idle>`. -/
def displayOps (refreshCode : Byte) (idle : Bit) : List Instr := [.cmd refreshCode, .wait idle]

/-- `clear <tx_code>, <value>, <count>`. -/
def clearOps (txCode value : Byte) (count : BitVec 20) : List Instr := [.cmd txCode, .fill value count]

/-- `update_display <tx_code>, <refresh_code>, <idle>, <bytes>`. -/
def updateDisplayOps (txCode refreshCode : Byte) (idle : Bit) (bytes : List Byte) : List Instr :=
  [.frame txCode bytes, .cmd refreshCode, .wait idle]

/-! ### The opcode table's numbering -/

/-- The longest op: a header and the payload words of COUNT_MAX bytes (R103, R106). -/
def longestOp : Nat := 1 + ceil4 Config.countMax

/-- Word `k` of an op given as one number of `nbits` bits, bit 0 the least significant of the first word. -/
def tableWord (nbits w k : Nat) : Word := BitVec.ofNat 32 ((w % 2 ^ nbits) >>> (32 * k))

/-- What the decoder reads from an op whose bits are `w`, every bit above `nbits` being 0. -/
def decodeTableWord (nbits w : Nat) : Option Instr := (decode longestOp (tableWord nbits w)).toOption

end Sys2Proof
end

