-- ==== Sys2Proof/Machine/State.lean ====
section
/-! DEFINITION. The state of the EPI (10_state.md), the events of TRACE (00_scope.md R14, R15), the host's accesses
(20_memory.md R73) and the state after power-on reset (R56). -/

namespace Sys2Proof.Machine

/-- STATE (R31). The values 5 to 7 are never held. -/
inductive EngineState where
  | idle | run | wait | done | fault
deriving DecidableEq, Repr

/-- The codes of ERR_CODE (60_exceptions.md R251). The codes 7 to 15 are never raised. -/
inductive ErrCode where
  | none | busError | pinError | unsupported | precondition | illegalOp | streamOverrun
deriving DecidableEq, Repr

/-- The two values of the select line (R14). -/
inductive Select where
  | cmd | data
deriving DecidableEq, Repr

/-- The external actions (R14). -/
inductive Action where
  | setDC (k : Select)
  | setRST (level : Bit)
  | xfer (bytes : List Byte)
  | delay (us : Word)
  | poll
  | yield (us : Word)
deriving DecidableEq, Repr

/-- The answers an action can get (R14): `ok`, `ok(l)` for a POLL, or `err`. -/
inductive Answer where
  | ok
  | level (l : Bit)
  | err
deriving DecidableEq, Repr

/-- An entry of TRACE (R15): an action with its answer, or the marker of an SRESET. -/
inductive Event where
  | act (a : Action) (r : Answer)
  | sreset
deriving DecidableEq, Repr

/-- The width of a host access; only `word`, 32 bits, is supported (R73). -/
inductive AccessWidth where
  | byte | half | word | double
deriving DecidableEq, Repr

/-- One host access at a byte offset of the host address space (R70). Only its low 32 bits of data are given, since
an access of another width is refused. -/
inductive HostAccess where
  | read (width : AccessWidth) (offset : Nat)
  | write (width : AccessWidth) (offset : Nat) (value : Word)
deriving DecidableEq, Repr

/-- Whose turn it is: the engine's, the host's, or the `rst_n` port's (R8, R290). -/
inductive Turn where
  | engine
  | host (access : HostAccess)
  | powerOn
deriving DecidableEq, Repr

/-- Op memory: the bytes written since power-on, by host byte offset (R70), in strictly rising order of offset. -/
abbrev Memory := List Host.Cell

/-- The state of one EPI and, in the last six fields, what the model adds to run it against its surroundings. -/
structure State where
  /-- OPMEM_WORDS, DC_CMD_LEVEL, SYNC_STAGES (R10): fixed for one EPI, and no step writes them. -/
  params : Config.Params
  /-- STATE (R31). -/
  engine : EngineState
  /-- PC, a word index (R32). -/
  pc : Word
  /-- ENTRY (R33). -/
  entry : Word
  /-- ERR_CODE (R34). -/
  errCode : ErrCode
  /-- ERR_PC (R35). -/
  errPc : Word
  /-- POLLS (R36). -/
  polls : Word
  /-- PER_BYTE (R37). -/
  perByte : Bit
  /-- INVERT (R38). -/
  invert : Bit
  /-- EXPAND (R39). -/
  expand : Bit
  /-- FRAME_LEN (R40). -/
  frameLen : Word
  /-- POLL_INTERVAL_US (R41). -/
  pollInterval : Word
  /-- BYTE_GAP_US (R42). -/
  byteGap : Word
  /-- DC_OUT (R43). -/
  dcOut : Bit
  /-- DC_VALID (R43). -/
  dcValid : Bit
  /-- RST_OUT (R44). -/
  rstOut : Bit
  /-- BUSY_SYNC as it was last sampled (R45). -/
  busySync : Bit
  /-- The hidden progress (R46): the remaining actions of the op being executed, empty where none is in progress. -/
  todo : List Action
  /-- The op memory (R71). -/
  mem : Memory
  /-- TRACE, the oldest event first (R15). -/
  trace : List Event
  /-- The model's own: how many power-on resets there have been; the index of the free power-on bytes (U3). -/
  powerOns : Nat
  /-- The model's own: how many answers of the environment have been taken; the index of its free draws. -/
  draws : Nat
  /-- The model's own: how many free levels have been taken, at resets and reads of LINES (U1, U2). -/
  levels : Nat
  /-- The model's own: the environment's next answers, oldest first; where it is empty, answers are free draws. -/
  script : List Config.Draw
  /-- The model's own: whose turns come next; where it is empty, the engine's. -/
  schedule : List Turn
  /-- The model's own: the word the host's last read returned. -/
  readData : Option Word
deriving DecidableEq, Repr

/-- How a step can stop as a fault. No op raises one: the faults of the spec are next states (60_exceptions.md R259). -/
inductive Fault where
  /-- Raised by a host access at an offset outside the 0x20000 bytes of the address space (R70). Safe: the model
  stops where the spec has no such address. -/
  | outsideAddressSpace (offset : Nat)
deriving DecidableEq, Repr

/-- How a step can be refused. -/
inductive Refusal where
  /-- Raised by an arm of `exec` whose instruction has no meaning yet. Safe: the model stops. No arm raises it. -/
  | notModelled (mnemonic : String)
  /-- Raised by a host access that is not 32 bits wide (R73: "A model refuses it"). Safe: the host has no such step. -/
  | accessWidth (width : AccessWidth)
  /-- Raised by a host access at an offset that is no multiple of 4 (R73). Safe, as above. -/
  | unalignedAccess (offset : Nat)
deriving DecidableEq, Repr

/-- The machine right after power-on reset (R56), with the default parameters of R10. DC_OUT and BUSY_SYNC are draws
(U1, U2), so they are free values; DESIGN CHOICE: the model's own fields start empty or at zero (log 18). -/
def State.reset : State where
  params := Config.Params.standard
  engine := .idle
  pc := 0
  entry := 0
  errCode := .none
  errPc := 0
  polls := 0
  perByte := 0
  invert := 0
  expand := 0
  frameLen := 0
  pollInterval := 0
  byteGap := 0
  dcOut := Config.freeLevel 0
  dcValid := 0
  rstOut := 1
  busySync := Config.freeLevel 1
  todo := []
  mem := []
  trace := []
  powerOns := 0
  draws := 0
  levels := 2
  script := []
  schedule := []
  readData := none

end Sys2Proof.Machine
end

