-- ==== Sys2Proof/Machine/Ops.lean ====
section
/-! DEFINITION. The shared operations: op memory, the environment's draws, performing an action, raising a fault and
completing an op. -/

namespace Sys2Proof.Machine

/-! ### Op memory (20_memory.md R70, R71) -/

/-- The byte listed at an offset, if any. -/
def Memory.findByte : Memory → Nat → Option Byte
  | [], _ => none
  | (k, b) :: rest, a => if k = a then some b else Memory.findByte rest a

/-- The cells of a run of bytes from offset `a` on. -/
def cellsFrom (a : Nat) : List Byte → Memory
  | [] => []
  | b :: rest => (a, b) :: cellsFrom (a + 1) rest

/-- Stores a run of bytes from offset `a` on, keeping the list in rising order. -/
def Memory.writeBytes (m : Memory) (a : Nat) (bytes : List Byte) : Memory :=
  m.filter (fun c => c.1 < a) ++ cellsFrom a bytes ++ m.filter (fun c => a + bytes.length ≤ c.1)

/-- The canonical form for `words` words of op memory: offsets strictly rising and inside the op memory. An unlisted
offset has no fixed value (U3), so no listed byte is excluded. -/
abbrev Memory.wf (words : Nat) (m : Memory) : Prop :=
  m.Pairwise (fun c d => c.1 < d.1) ∧ ∀ c ∈ m, Config.opmemBase ≤ c.1 ∧ c.1 < Config.opmemBase + 4 * words

/-- The byte at a host offset of the op memory: the byte written last, or the free power-on byte (U3). -/
def State.byteAt (s : State) (a : Nat) : Byte := (s.mem.findByte a).getD (Config.powerOnByte s.powerOns a)

/-- The host offset of op-memory word `i` (R70). -/
def wordOffset (i : Nat) : Nat := Config.opmemBase + 4 * i

/-- The word whose bytes are stored from offset `a` on. DESIGN CHOICE: the least significant byte lies lowest (log 5);
no access of the spec sees part of a word. -/
def State.wordAt (s : State) (a : Nat) : Word :=
  s.byteAt (a + 3) ++ s.byteAt (a + 2) ++ s.byteAt (a + 1) ++ s.byteAt a

/-- OpMem(i) (R13, R75). -/
def State.opWord (s : State) (i : Nat) : Word := s.wordAt (wordOffset i)

/-- The bytes of a word as they are stored, lowest offset first. -/
def wordBytes (w : Word) : List Byte := [wordByte w 0, wordByte w 1, wordByte w 2, wordByte w 3]

/-- Stores a word at offset `a`. -/
def State.writeWord (s : State) (a : Nat) (w : Word) : State := { s with mem := s.mem.writeBytes a (wordBytes w) }

/-! ### The environment (00_scope.md R10 ENV, R14) -/

/-- The draw that answers the next action that asks for one. -/
def State.nextDraw (s : State) : Config.Draw := s.script.headD (Config.freeDraw s.draws)

/-- The state after that draw has been taken. -/
def State.takeDraw (s : State) : State := { s with script := s.script.tail, draws := s.draws + 1 }

/-- The answer the environment gives to an action in a state (R14): DELAY and YIELD never fail (D29). -/
def State.answer (s : State) : Action → Answer
  | .setDC _ => if s.nextDraw.fails then .err else .ok
  | .setRST _ => if s.nextDraw.fails then .err else .ok
  | .xfer _ => if s.nextDraw.fails then .err else .ok
  | .poll => if s.nextDraw.fails then .err else .level s.nextDraw.level
  | .delay _ => .ok
  | .yield _ => .ok

/-- Appends an event to TRACE (R15). -/
def State.record (s : State) (e : Event) : State := { s with trace := s.trace ++ [e] }

/-! ### Act(a): one action (R13) -/

/-- The level of DC for a select value: DC_CMD_LEVEL for "command", its complement for "data" (R9, R160). -/
def selectLevel (p : Config.Params) : Select → Bit
  | .cmd => p.dcCmdLevel
  | .data => 1 - p.dcCmdLevel

/-- The registers a successful action writes: DC_OUT and DC_VALID (R43, R160), RST_OUT (R44, R181). -/
def State.drive (s : State) : Action → State
  | .setDC k => { s with dcOut := selectLevel s.params k, dcValid := 1 }
  | .setRST l => { s with rstOut := l }
  | .xfer _ => s
  | .delay _ => s
  | .poll => s
  | .yield _ => s

/-- POLLS + 1, stopping at 0xFFFFFFFF (R36, R201). -/
def satSucc (v : Word) : Word := if v = 0xFFFFFFFF then v else v + 1

/-- What asking the environment changes: the draw is taken, and a POLL samples BUSY_SYNC and counts (R201). -/
def State.ask (s : State) : Action → State
  | .setDC _ => s.takeDraw
  | .setRST _ => s.takeDraw
  | .xfer _ => s.takeDraw
  | .poll => { s.takeDraw with busySync := s.nextDraw.level, polls := satSucc s.polls }
  | .delay _ => s
  | .yield _ => s

/-- The state after Act(a): the event is appended with its answer, and on success the lines are driven (R13, R15). -/
def State.perform (s : State) (a : Action) : State :=
  let t := (s.ask a).record (.act a (s.answer a))
  if s.answer a = .err then t else t.drive a

/-- The fault a failed action raises: BUS_ERROR for an XFER, PIN_ERROR otherwise (60_exceptions.md R252, R253). -/
def Action.failCode : Action → ErrCode
  | .xfer _ => .busError
  | .setDC _ => .pinError
  | .setRST _ => .pinError
  | .poll => .pinError
  | .delay _ => .pinError
  | .yield _ => .pinError

/-! ### Fault entry and completion -/

/-- `raise Fault(code)` (60_exceptions.md R259). Nothing returns from it: START begins a new run (R261). -/
def State.raise (s : State) (code : ErrCode) : State :=
  { s with errCode := code, errPc := s.pc, engine := .fault, todo := [] }

/-- The fault a failed decode raises (R111). -/
def decodeFault : DecodeError → ErrCode
  | .headerPastEnd => .streamOverrun
  | .reservedOpcode => .illegalOp
  | .mustBeZero => .illegalOp
  | .wordsPastEnd => .streamOverrun

/-- Stage 3 of an op of `size` words other than END: PC <- PC + size, STATE <- RUN (41_sequencer.md R141). -/
def State.complete (s : State) (size : Nat) : State :=
  { s with pc := s.pc + BitVec.ofNat 32 size, engine := .run, todo := [] }

/-- After a successful action: the op goes on with `rest`, and completes in the same step where that is empty (R141). -/
def State.proceed (s : State) (size : Nat) : List Action → State
  | [] => s.complete size
  | a :: rest => { s with todo := a :: rest }

/-- One step of an op at the action `a`, with `rest` after it: an `err` answer raises the action's fault (R141). -/
def State.actStep (s : State) (size : Nat) (a : Action) (rest : List Action) : State :=
  if s.answer a = .err then (s.perform a).raise a.failCode else (s.perform a).proceed size rest

/-- One engine step of an op of `size` words whose actions are `acts`: the decode stage where the op has not begun,
otherwise its next action (R141, R142; log 1). -/
def State.opStep (s : State) (size : Nat) (acts : List Action) : State :=
  match s.todo with
  | [] => { s with todo := acts }
  | a :: rest => s.actStep size a rest

end Sys2Proof.Machine
end

