-- ==== Sys2Proof/Machine/Operands.lean ====
section
/-! DEFINITION. The byte transforms (45_frame_writer.md R220 to R222), the framing of a byte stream (42_framer.md R162)
and the action sequence of each op. -/

namespace Sys2Proof.Machine

/-! ### Transforms -/

/-- tx(b) (R220). -/
def tx (invert : Bit) (b : Byte) : Byte := if invert = 1 then ~~~b else b

/-- sym(x) (R221). -/
def sym (x : Bool) : Byte := if x then 0x3 else 0x0

/-- One byte of an expansion, from the source bit of its high and of its low nibble (R221). -/
def symPair (hi lo : Bool) : Byte := (sym hi <<< 4) ||| sym lo

/-- Expand1(s) (R221). -/
def expand1 (b : Byte) : List Byte :=
  [symPair (b.getLsbD 7) (b.getLsbD 6), symPair (b.getLsbD 5) (b.getLsbD 4),
   symPair (b.getLsbD 3) (b.getLsbD 2), symPair (b.getLsbD 1) (b.getLsbD 0)]

/-- Expand(P) (R221). -/
def expandBytes (p : List Byte) : List Byte := p.flatMap expand1

/-- Transform(P) (R222): expansion first, inversion last. -/
def transform (invert expand : Bit) (p : List Byte) : List Byte :=
  (if expand = 1 then expandBytes p else p).map (tx invert)

/-! ### Stream (R162) -/

/-- The per-byte framing: one transaction a byte, with a gap between two of them where BYTE_GAP_US is not 0. -/
def perByteStream (gap : Word) : List Byte → List Action
  | [] => []
  | [b] => [.xfer [b]]
  | b :: c :: rest =>
    if gap = 0 then .xfer [b] :: perByteStream gap (c :: rest)
    else .xfer [b] :: .delay gap :: perByteStream gap (c :: rest)

/-- Stream(L): no transaction for no bytes, one in burst mode, one a byte in per-byte mode (R162). -/
def stream (perByte : Bit) (gap : Word) : List Byte → List Action
  | [] => []
  | b :: rest => if perByte = 1 then perByteStream gap (b :: rest) else [.xfer (b :: rest)]

/-! ### The actions of each op, in order -/

/-- CMD (R163). -/
def cmdActions (code : Byte) : List Action := [.setDC .cmd, .xfer [code]]

/-- DATA (R164): no transform reaches its bytes (R167). -/
def dataActions (s : State) (payload : List Byte) : List Action :=
  .setDC .data :: stream s.perByte s.byteGap payload

/-- CMD_DATA (R165). -/
def cmdDataActions (s : State) (code : Byte) (payload : List Byte) : List Action :=
  cmdActions code ++ dataActions s payload

/-- RESET (43_reset_timer.md R181). -/
def resetActions (assertUs settleUs : Word) : List Action :=
  [.setRST 0, .delay assertUs, .setRST 1, .delay settleUs]

/-- FILL (R223): inverted, never expanded. -/
def fillActions (s : State) (value : Byte) (count : BitVec 20) : List Action :=
  .setDC .data :: stream s.perByte s.byteGap (List.replicate count.toNat (tx s.invert value))

/-- FRAME (R224), after its length check: the command byte is never transformed. -/
def frameActions (s : State) (code : Byte) (payload : List Byte) : List Action :=
  cmdActions code ++ .setDC .data :: stream s.perByte s.byteGap (transform s.invert s.expand payload)

end Sys2Proof.Machine
end

