-- ==== Sys2Proof/Machine/BusySync.lean ====
section
/-! DEFINITION. The busy-line synchronizer's loop: WAIT (44_busy_sync.md R203). -/

namespace Sys2Proof.Machine

/-- WAIT at decode: STATE <- WAIT, POLLS <- 0, and the first action is a POLL (R203). -/
def State.beginWait (s : State) : State := { s with engine := .wait, polls := 0, todo := [.poll] }

/-- The actions that remain after a successful action of WAIT (R203): none after the idle level, a YIELD and a POLL
after the busy level, what is left otherwise. -/
def waitRest (idle : Bit) (interval : Word) (rest : List Action) : Answer → List Action
  | .level l => if l = idle then [] else [.yield interval, .poll]
  | .ok => rest
  | .err => rest

/-- WAIT (R203), one engine step of it. -/
def execWait (idle : Bit) (s : State) : Host.Outcome State Fault Refusal :=
  .next (match s.todo with
    | [] => s.beginWait
    | a :: rest => s.actStep 1 a (waitRest idle s.pollInterval rest (s.answer a)))

end Sys2Proof.Machine
end

