-- ==== Sys2Proof/Machine/FrameWriter.lean ====
section
/-! DEFINITION. The frame-burst writer: FILL and FRAME (45_frame_writer.md R223, R224). -/

namespace Sys2Proof.Machine

/-- FILL (R223), one engine step of it. -/
def execFill (value : Byte) (count : BitVec 20) (s : State) : Host.Outcome State Fault Refusal :=
  .next (s.opStep 1 (fillActions s value count))

/-- FRAME at decode: N must equal FRAME_LEN, or PRECONDITION is raised before any action (R224, R225). -/
def State.beginFrame (s : State) (code : Byte) (payload : List Byte) : State :=
  if payload.length = s.frameLen.toNat then { s with todo := frameActions s code payload } else s.raise .precondition

/-- FRAME (R224), one engine step of it. -/
def execFrame (code : Byte) (payload : List Byte) (s : State) : Host.Outcome State Fault Refusal :=
  .next (match s.todo with
    | [] => s.beginFrame code payload
    | a :: rest => s.actStep (1 + ceil4 payload.length) a rest)

end Sys2Proof.Machine
end

