-- ==== Sys2Proof/Machine/Framer.lean ====
section
/-! DEFINITION. The command/data byte framer: CMD, DATA, CMD_DATA (42_framer.md R163 to R165). -/

namespace Sys2Proof.Machine

/-- CMD (R163), one engine step of it. -/
def execCmd (code : Byte) (s : State) : Host.Outcome State Fault Refusal := .next (s.opStep 1 (cmdActions code))

/-- DATA (R164), one engine step of it. -/
def execData (payload : List Byte) (s : State) : Host.Outcome State Fault Refusal :=
  .next (s.opStep (1 + ceil4 payload.length) (dataActions s payload))

/-- CMD_DATA (R165), one engine step of it. -/
def execCmdData (code : Byte) (payload : List Byte) (s : State) : Host.Outcome State Fault Refusal :=
  .next (s.opStep (1 + ceil4 payload.length) (cmdDataActions s code payload))

end Sys2Proof.Machine
end

