-- ==== Sys2Proof/Machine/ResetTimer.lean ====
section
/-! DEFINITION. The reset-pulse timer: RESET (43_reset_timer.md R181). -/

namespace Sys2Proof.Machine

/-- RESET (R181), one engine step of it. -/
def execReset (assertUs settleUs : Word) (s : State) : Host.Outcome State Fault Refusal :=
  .next (s.opStep 3 (resetActions assertUs settleUs))

end Sys2Proof.Machine
end

