-- ==== Sys2Proof/Machine/Sequencer.lean ====
section
/-! DEFINITION. The sequencer's own ops: END and SETCFG (41_sequencer.md R145, R146). -/

namespace Sys2Proof.Machine

/-- END (R145): STATE <- DONE, and PC stays. -/
def execEndOp (s : State) : Host.Outcome State Fault Refusal := .next { s with engine := .done, todo := [] }

/-- SETCFG (R146): loads the configuration and completes in one step. -/
def execSetcfg (perByte invert expand : Bit) (frameLen pollInterval byteGap : Word) (s : State) :
    Host.Outcome State Fault Refusal :=
  .next (State.complete { s with
    perByte := perByte, invert := invert, expand := expand,
    frameLen := frameLen, pollInterval := pollInterval, byteGap := byteGap } 4)

end Sys2Proof.Machine
end

