-- ==== Sys2Proof/Machine/Dispatch.lean ====
section
/-! DEFINITION. One engine step of an op (41_sequencer.md R141): one arm per row of the opcode table. -/

namespace Sys2Proof.Machine

/-- One engine step of the op `i`. -/
def exec (i : Instr) (s : State) : Host.Outcome State Fault Refusal :=
  match i with
  | .endOp => Sys2Proof.Machine.execEndOp s
  | .reset assertUs settleUs => Sys2Proof.Machine.execReset assertUs settleUs s
  | .cmd code => Sys2Proof.Machine.execCmd code s
  | .data payload => Sys2Proof.Machine.execData payload s
  | .cmdData code payload => Sys2Proof.Machine.execCmdData code payload s
  | .fill value count => Sys2Proof.Machine.execFill value count s
  | .frame code payload => Sys2Proof.Machine.execFrame code payload s
  | .wait idle => Sys2Proof.Machine.execWait idle s
  | .setcfg perByte invert expand frameLen pollInterval byteGap => Sys2Proof.Machine.execSetcfg perByte invert expand frameLen pollInterval byteGap s

end Sys2Proof.Machine
end

