-- ==== Sys2Proof/Machine/Fetch.lean ====
section
/-! DEFINITION. Reading the op at PC (30_encoding.md R111, 20_memory.md R75), and placing one there. -/

namespace Sys2Proof.Machine

/-- How many words of op memory lie from PC to its end. -/
def State.wordsLeft (s : State) : Nat := s.params.opmemWords - s.pc.toNat

/-- Decode() at PC (R111). -/
def State.fetch (s : State) : Except DecodeError Instr :=
  decode s.wordsLeft (fun k => s.opWord (s.pc.toNat + k))

/-- How many words an op with this header takes; one where no row has its OPC. -/
def headerSize (h : Word) : Nat :=
  match Opcode.ofOpc (headerOpc h) with
  | none => 1
  | some o => o.size (headerCount h)

/-- The first `n` bytes, from the `k`-th on, of a number laid out with its least significant byte first. -/
def numberBytes (v : Nat) : Nat → Nat → List Byte
  | 0, _ => []
  | n + 1, k => BitVec.ofNat 8 (v >>> (8 * k)) :: numberBytes v n (k + 1)

/-- How many words to place at PC for an op of `nbits` bits `w`: what it is given and what its header asks for, as far
as the op memory goes. -/
def State.placedWords (s : State) (nbits w : Nat) : Nat :=
  min (max ((nbits + 31) / 32) (headerSize (tableWord nbits w 0))) s.wordsLeft

/-- The state with that op stored at PC, every bit above `nbits` zero. -/
def State.placeOp (s : State) (nbits w : Nat) : State :=
  { s with mem := s.mem.writeBytes (wordOffset s.pc.toNat) (numberBytes (w % 2 ^ nbits) (4 * s.placedWords nbits w) 0) }

end Sys2Proof.Machine
end

