-- ==== Sys2Proof/Machine/Flags.lean ====
section
/-! DEFINITION. The EPI has no condition codes (10_state.md R55). This file holds its status words: STATE and ERR_CODE as
bits, and STATUS, CFG and LINES as the host reads them. -/

namespace Sys2Proof.Machine

/-- The 3 bits of STATE (R31). -/
def EngineState.bits : EngineState → BitVec 3
  | .idle => 0
  | .run => 1
  | .wait => 2
  | .done => 3
  | .fault => 4

/-- The 4 bits of ERR_CODE (60_exceptions.md R251). -/
def ErrCode.bits : ErrCode → BitVec 4
  | .none => 0
  | .busError => 1
  | .pinError => 2
  | .unsupported => 3
  | .precondition => 4
  | .illegalOp => 5
  | .streamOverrun => 6

/-- STATUS (R49). -/
def State.statusWord (s : State) : Word := 0#20 ++ s.errCode.bits ++ 0#5 ++ s.engine.bits

/-- CFG (R50). -/
def State.cfgWord (s : State) : Word := 0#29 ++ s.expand ++ s.invert ++ s.perByte

/-- LINES (R51), with BUSY_SYNC as sampled. -/
def State.linesWord (s : State) : Word := 0#28 ++ s.busySync ++ s.rstOut ++ s.dcValid ++ s.dcOut

end Sys2Proof.Machine
end

