-- ==== Sys2Proof/Machine/HostPort.lean ====
section
/-! DEFINITION. The host's side: START (41_sequencer.md R140), the two resets (70_reset_and_hazards.md R291), the register
window (10_state.md R47 to R54) and the host's accesses (20_memory.md R70 to R76). -/

namespace Sys2Proof.Machine

/-- Whether the engine is running an op stream: STATE is RUN or WAIT. -/
def State.running (s : State) : Bool :=
  match s.engine with
  | .run => true
  | .wait => true
  | .idle => false
  | .done => false
  | .fault => false

/-- START (R140): ignored while running. -/
def State.start (s : State) : State :=
  if s.running then s
  else { s with pc := s.entry, errCode := .none, errPc := 0, polls := 0, engine := .run }

/-- Every register at its reset value (R56, R291). DC_OUT and BUSY_SYNC are fresh free values. Op memory, TRACE and
the model's other fields stay. -/
def State.resetRegisters (s : State) : State :=
  { s with
    engine := .idle, pc := 0, entry := 0, errCode := .none, errPc := 0, polls := 0,
    perByte := 0, invert := 0, expand := 0, frameLen := 0, pollInterval := 0, byteGap := 0,
    dcOut := Config.freeLevel s.levels, dcValid := 0, rstOut := 1, busySync := Config.freeLevel (s.levels + 1),
    todo := [], levels := s.levels + 2 }

/-- SRESET (R291): the registers, and the marker in TRACE; op memory is unchanged. -/
def State.softReset (s : State) : State := s.resetRegisters.record .sreset

/-- Power-on reset (R291): the registers, unspecified op memory, an empty TRACE. -/
def State.powerOn (s : State) : State :=
  { s.resetRegisters with mem := [], trace := [], powerOns := s.powerOns + 1 }

/-- A write of CTRL (R48): with bit 1 set SRESET only, else with bit 0 set START. -/
def State.writeCtrl (s : State) (v : Word) : State :=
  if v.getLsbD 1 then s.softReset else if v.getLsbD 0 then s.start else s

/-- A register of the window (R47); what the map does not name reads 0 (R52), as CTRL does (R48). -/
def State.windowWord (s : State) (offset : Nat) : Word :=
  match offset with
  | 0x004 => s.statusWord
  | 0x008 => s.pc
  | 0x00C => s.entry
  | 0x010 => s.errPc
  | 0x014 => s.polls
  | 0x018 => s.cfgWord
  | 0x01C => s.frameLen
  | 0x020 => s.pollInterval
  | 0x024 => s.byteGap
  | 0x028 => s.linesWord
  | _ => 0

/-- Whether an offset lies in the op memory (R70). -/
def State.inOpMemory (s : State) (offset : Nat) : Bool :=
  decide (Config.opmemBase ≤ offset ∧ offset < Config.opmemBase + 4 * s.params.opmemWords)

/-- A read of LINES sees a fresh sample of BUSY_SYNC (R51: "A model draws it"). -/
def State.sampleBusy (s : State) (offset : Nat) : State :=
  if offset = 0x028 then { s with busySync := Config.freeLevel s.levels, levels := s.levels + 1 } else s

/-- An aligned 32-bit read (R70, R74): the window, the op memory, and 0 elsewhere. -/
def State.hostRead (s : State) (offset : Nat) : State :=
  let t := s.sampleBusy offset
  { t with readData := some (if t.inOpMemory offset then t.wordAt offset else t.windowWord offset) }

/-- An aligned 32-bit write (R53, R74): CTRL, ENTRY and, unless the engine is running, the op memory; any other is
ignored (R52). -/
def State.hostWrite (s : State) (offset : Nat) (v : Word) : State :=
  if offset = 0x000 then s.writeCtrl v
  else if offset = 0x00C then { s with entry := v }
  else if s.inOpMemory offset then (if s.running then s else s.writeWord offset v)
  else s

/-- Whether an access is one the EPI supports: inside the address space (R70), 32 bits wide and word-aligned (R73). -/
def checkAccess (width : AccessWidth) (offset : Nat) (go : State) : Host.Outcome State Fault Refusal :=
  if Config.hostSpace ≤ offset then .fault (.outsideAddressSpace offset)
  else if width ≠ .word then .refused (.accessWidth width)
  else if offset % 4 ≠ 0 then .refused (.unalignedAccess offset)
  else .next go

/-- One host access (R76). -/
def hostAccess (a : HostAccess) (s : State) : Host.Outcome State Fault Refusal :=
  match a with
  | .read width offset => checkAccess width offset (s.hostRead offset)
  | .write width offset v => checkAccess width offset (s.hostWrite offset v)

end Sys2Proof.Machine
end

