-- ==== Sys2Proof/Machine/Step.lean ====
section
/-! DEFINITION. One step of the machine: the turn of the engine, of the host or of the power-on reset (00_scope.md R8). -/

namespace Sys2Proof.Machine

/-- One step of the engine (41_sequencer.md R141): the op at PC, or the fault its decode raises; nothing in IDLE, DONE
and FAULT (DESIGN CHOICE: the state stays as it is, log 4). -/
def engineStep (s : State) : Host.Outcome State Fault Refusal :=
  if s.running then
    match s.fetch with
    | .ok i => exec i s
    | .error e => .next (s.raise (decodeFault e))
  else .next s

/-- One step: the next turn of the schedule, or the engine's where none is scheduled (log 2). -/
def step (s : State) : Host.Outcome State Fault Refusal :=
  match s.schedule with
  | [] => engineStep s
  | .engine :: rest => engineStep { s with schedule := rest }
  | .host a :: rest => hostAccess a { s with schedule := rest }
  | .powerOn :: rest => .next (State.powerOn { s with schedule := rest })

/-- The state with one op stored where the engine fetches next, and the engine about to run it: it stands for the
host's writes of that op and its START (70_reset_and_hazards.md R294; log 16). -/
def State.withFetchWord (s : State) (nbits w : Nat) : State :=
  { s.placeOp nbits w with engine := .run, todo := [], schedule := [] }

end Sys2Proof.Machine
end

