-- ==== Sys2Proof/Safety.lean ====
section
/-! DEFINITION. The terms claims about the EPI are stated in: the actions of an op, a run of one op, the environment's
coming answers, what a stream puts on the wire, and the invariant of the machine. -/

namespace Sys2Proof.Machine

/-- The actions of an op that begins in state `s`, in order (R163 to R165, R181, R203, R223, R224). For WAIT only its
first: the rest depend on the answers. -/
def opActions (s : State) : Instr → List Action
  | .endOp => []
  | .reset a b => resetActions a b
  | .cmd c => cmdActions c
  | .data p => dataActions s p
  | .cmdData c p => cmdDataActions s c p
  | .fill v n => fillActions s v n
  | .frame c p => frameActions s c p
  | .wait _ => [.poll]
  | .setcfg _ _ _ _ _ _ => []

/-- Whether an action asks the environment for an answer (R14). -/
def Action.asks : Action → Bool
  | .setDC _ => true
  | .setRST _ => true
  | .xfer _ => true
  | .poll => true
  | .delay _ => false
  | .yield _ => false

/-- How many answers a list of actions asks for. -/
def askCount (acts : List Action) : Nat := acts.countP Action.asks

/-- The environment's answer to the `k`-th of the actions to come that asks for one. -/
def State.drawAt (s : State) (k : Nat) : Config.Draw := s.script.getD k (Config.freeDraw (s.draws + k))

/-- The next `n` answers are no `err`. -/
abbrev State.answersOk (s : State) (n : Nat) : Prop := ∀ k < n, (s.drawAt k).fails = false

/-- The events of actions that were all answered `ok`. -/
def okEvents (acts : List Action) : List Event := acts.map (fun a => .act a .ok)

/-- It is the engine's turn in `s`, and `r` is the state it takes it in: the schedule names no turn, or the engine's. -/
abbrev EngineTurn (s r : State) : Prop :=
  (s.schedule = [] ∧ r = s) ∨ ∃ rest, s.schedule = .engine :: rest ∧ r = { s with schedule := rest }

/-- It is the host's turn in `s`, with the access `a`, and `r` is the state it takes it in. -/
abbrev HostTurn (s : State) (a : HostAccess) (r : State) : Prop :=
  ∃ rest, s.schedule = .host a :: rest ∧ r = { s with schedule := rest }

/-- The turn of `s` is no power-on reset. -/
abbrev NoPowerOn (s : State) : Prop := ∀ rest, s.schedule ≠ .powerOn :: rest

/-- The turn of `s` is a host write of CTRL that asks for SRESET (R48). -/
abbrev SoftResetTurn (s : State) : Prop :=
  ∃ v rest, s.schedule = .host (.write .word 0x000 v) :: rest ∧ v.getLsbD 1 = true

/-- `n` engine steps of the one op `i`. -/
def opRun : Nat → Instr → State → Host.Outcome State Fault Refusal
  | 0, _, s => .next s
  | n + 1, i, s =>
    match exec i s with
    | .next t => opRun n i t
    | .fault f => .fault f
    | .refused r => .refused r

/-- `n` steps of the machine. -/
def steps : Nat → State → Host.Outcome State Fault Refusal
  | 0, s => .next s
  | n + 1, s =>
    match step s with
    | .next t => steps n t
    | .fault f => .fault f
    | .refused r => .refused r

/-- What R162 says a stream of data bytes puts on the wire: nothing for no bytes, one transaction in burst mode, and
one a byte in per-byte mode, a DELAY(BYTE_GAP_US) between each two of them where that is not 0. -/
def wireActions (perByte : Bit) (gap : Word) (bytes : List Byte) : List Action :=
  if bytes = [] then []
  else if perByte = 0 then [.xfer bytes]
  else if gap = 0 then bytes.map (fun b => .xfer [b])
  else (bytes.map (fun b => .xfer [b])).intersperse (.delay gap)

/-- The events of `n` busy reads of a WAIT, each with the YIELD after it (R203). -/
def busyEvents (idle : Bit) (interval : Word) (n : Nat) : List Event :=
  (List.replicate n [Event.act .poll (.level (1 - idle)), Event.act (.yield interval) .ok]).flatten

/-- The events of a WAIT that read the busy level `n` times and then the idle level (R203). -/
def waitEvents (idle : Bit) (interval : Word) (n : Nat) : List Event :=
  busyEvents idle interval n ++ [.act .poll (.level idle)]

/-- Every transaction in a list of events carries at least one byte (R161). -/
abbrev noEmptyTransfer (events : List Event) : Prop := ∀ r, Event.act (.xfer []) r ∉ events

/-- The op `i` is at PC, and the hidden progress is a rest of its actions (R46). -/
abbrev State.inOp (s : State) (i : Instr) : Prop := s.todo <:+ opActions s i

/-- The invariant of the machine: what every state of a run meets. -/
structure Inv (s : State) : Prop where
  /-- The parameters are in the ranges of R10. -/
  params : s.params.valid
  /-- The op memory is in its canonical form. -/
  memory : s.mem.wf s.params.opmemWords
  /-- ERR_CODE is NONE exactly outside FAULT (R34, R259). -/
  code : s.engine = .fault ↔ s.errCode ≠ .none
  /-- UNSUPPORTED is never raised (R257). -/
  supported : s.errCode ≠ .unsupported
  /-- In FAULT, ERR_PC is PC (R35, R259). -/
  faultPc : s.engine = .fault → s.errPc = s.pc
  /-- Outside FAULT, ERR_PC is 0 (R35, R140). -/
  clearPc : s.engine ≠ .fault → s.errPc = 0
  /-- In IDLE, DONE and FAULT no op is in progress (R141). -/
  stopped : s.running = false → s.todo = []
  /-- STATE is WAIT exactly while a WAIT is in progress, before a POLL or before a YIELD (R31, R46). -/
  waiting : s.engine = .wait →
    (∃ idle, s.fetch = .ok (.wait idle)) ∧ (s.todo = [.poll] ∨ s.todo = [.yield s.pollInterval, .poll])
  /-- In RUN, the actions left to do are a rest of those of the op at PC, which is no WAIT (R31, R46). -/
  working : s.engine = .run → s.todo ≠ [] →
    ∃ i, s.fetch = .ok i ∧ (∀ idle, i ≠ .wait idle) ∧ s.inOp i
  /-- PC passes the end of op memory only as START loaded it: before the first decode, and in the fault that raises
  (R32, R144). -/
  pcRange : s.pc.toNat ≤ s.params.opmemWords ∨ (s.engine = .run ∧ s.todo = []) ∨
    (s.engine = .fault ∧ s.errCode = .streamOverrun)
  /-- No transaction of TRACE is empty (R161). -/
  transfers : noEmptyTransfer s.trace

/-- Two states that agree on all that R147 lets a run depend on: every register, the hidden progress, the op memory
and the environment's coming answers. -/
structure SameRun (s t : State) : Prop where
  params : s.params = t.params
  engine : s.engine = t.engine
  pc : s.pc = t.pc
  entry : s.entry = t.entry
  errCode : s.errCode = t.errCode
  errPc : s.errPc = t.errPc
  polls : s.polls = t.polls
  perByte : s.perByte = t.perByte
  invert : s.invert = t.invert
  expand : s.expand = t.expand
  frameLen : s.frameLen = t.frameLen
  pollInterval : s.pollInterval = t.pollInterval
  byteGap : s.byteGap = t.byteGap
  dcOut : s.dcOut = t.dcOut
  dcValid : s.dcValid = t.dcValid
  rstOut : s.rstOut = t.rstOut
  busySync : s.busySync = t.busySync
  todo : s.todo = t.todo
  memory : ∀ a, s.byteAt a = t.byteAt a
  answers : ∀ k, s.drawAt k = t.drawAt k

/-- Everything but TRACE, the progress, the lines, the fault registers, STATE, PC and the environment's draws is as it
was: the parameters, ENTRY, the configuration, the op memory, the host's data and the schedule. -/
structure SameRest (s t : State) : Prop where
  params : t.params = s.params
  entry : t.entry = s.entry
  perByte : t.perByte = s.perByte
  invert : t.invert = s.invert
  expand : t.expand = s.expand
  frameLen : t.frameLen = s.frameLen
  pollInterval : t.pollInterval = s.pollInterval
  byteGap : t.byteGap = s.byteGap
  memory : ∀ a, t.byteAt a = s.byteAt a
  powerOns : t.powerOns = s.powerOns
  levels : t.levels = s.levels
  schedule : t.schedule = s.schedule
  readData : t.readData = s.readData

end Sys2Proof.Machine
end

