-- ==== Sys2Proof/Certificates/Slice0/Obligations.lean ====
section
/-! DEFINITION. The statements about the EPI, from the numbered rules of spec/. -/

open Sys2Proof Sys2Proof.Machine

/-! ### Encoding (30_encoding.md) -/

/-- R100 to R107, R111: decode of the words encode writes for a well-formed op is that op, with every operand. -/
def Obligations.DecodeOfEncodeIsTheOp : Prop :=
  ∀ (i : Instr) (avail : Nat) (word : Nat → Word), i.wellFormed = true → (encode i).length ≤ avail →
    (∀ k (h : k < (encode i).length), word k = (encode i)[k]) → decode avail word = .ok i

/-- One word written out for each op from R101, R105 and R107, and what it stands for (95_test_vectors.md). -/
def Obligations.SampleWordsDecode : Prop :=
  decodeWords [0x00000000] = .ok .endOp ∧
  decodeWords [0x10000000, 0x00002710, 0x000007D0] = .ok (.reset 10000 2000) ∧
  decodeWords [0x21200000] = .ok (.cmd 0x12) ∧
  decodeWords [0x30000003, 0x00CCBBAA] = .ok (.data [0xAA, 0xBB, 0xCC]) ∧
  decodeWords [0x40100002, 0x00000003] = .ok (.cmdData 0x01 [0x03, 0x00]) ∧
  decodeWords [0x5FF00003] = .ok (.fill 0xFF 3) ∧
  decodeWords [0x61000002, 0x0000F00F] = .ok (.frame 0x10 [0x0F, 0xF0]) ∧
  decodeWords [0x70000001] = .ok (.wait 1) ∧
  decodeWords [0x80000003, 2, 0, 10] = .ok (.setcfg 1 1 0 2 0 10)

/-- R112, R107: a header word matches exactly one row of the opcode map and decodes to an op of it where its words fit,
or it matches none and decode fails with one of the two errors that raise ILLEGAL_OP. -/
def Obligations.HeaderIsOneRowOrIllegal : Prop :=
  ∀ (avail : Nat) (word : Nat → Word), avail ≠ 0 →
    (∃ o : Opcode, word 0 &&& o.mask = o.pattern ∧ (∀ o' : Opcode, word 0 &&& o'.mask = o'.pattern → o' = o) ∧
      (o.size (headerCount (word 0)) ≤ avail → ∃ i, decode avail word = .ok i ∧ i.opcode = o)) ∨
    ((∀ o : Opcode, word 0 &&& o.mask ≠ o.pattern) ∧
      (decode avail word = .error .reservedOpcode ∨ decode avail word = .error .mustBeZero))

/-- R106: the words encode writes are as many as size(op) says. -/
def Obligations.EncodingHasTheOpsSize : Prop := ∀ i : Instr, i.wellFormed = true → (encode i).length = i.size

/-- R104: a decoded DATA, CMD_DATA or FRAME has COUNT payload bytes, and bit `j` of byte `k` is bit `8*(k mod 4) + j` of
the word at PC + 1 + (k div 4). -/
def Obligations.PayloadIsLittleEndian : Prop :=
  ∀ (avail : Nat) (word : Nat → Word) (i : Instr), decode avail word = .ok i →
    (i.opcode = .data ∨ i.opcode = .cmdData ∨ i.opcode = .frame) →
    i.payload.length = (headerCount (word 0)).toNat ∧
    ∀ k (h : k < i.payload.length) (j : Nat), j < 8 →
      (i.payload[k]).getLsbD j = (word (1 + k / 4)).getLsbD (8 * (k % 4) + j)

/-- R104, R110: decode does not depend on pad bytes: words that agree on the header and on every payload byte below
COUNT decode alike. -/
def Obligations.PadBytesAreIgnored : Prop :=
  ∀ (avail : Nat) (word word' : Nat → Word), word 0 = word' 0 →
    headerOpc (word 0) = 3 ∨ headerOpc (word 0) = 4 ∨ headerOpc (word 0) = 6 →
    (∀ k < (headerCount (word 0)).toNat, ∀ j < 8,
      (word (1 + k / 4)).getLsbD (8 * (k % 4) + j) = (word' (1 + k / 4)).getLsbD (8 * (k % 4) + j)) →
    decode avail word = decode avail word'

/-! ### Fetching and the decode faults (30_encoding.md R111, 41_sequencer.md R141) -/

/-- A step of a running engine runs the op its decode gives at PC. -/
def Obligations.StepRunsTheDecodedOp : Prop :=
  ∀ (s r : State) (i : Instr), EngineTurn s r → r.running = true → r.fetch = .ok i → step s = exec i r

/-- Where the op memory from PC on holds the words of a well-formed op, a step of the running engine runs that op. -/
def Obligations.StepRunsTheEncodedOp : Prop :=
  ∀ (s r : State) (i : Instr), EngineTurn s r → r.running = true → i.wellFormed = true →
    r.pc.toNat + (encode i).length ≤ r.params.opmemWords →
    (∀ k (h : k < (encode i).length), r.opWord (r.pc.toNat + k) = (encode i)[k]) → step s = exec i r

/-- R109: OPC 0x9 to 0xF raises ILLEGAL_OP before any action, whatever the other bits; the all-zero word is END. -/
def Obligations.ReservedOpcodeFaults : Prop :=
  ∀ s r : State, EngineTurn s r → r.running = true → r.pc.toNat < r.params.opmemWords →
    (9 ≤ (headerOpc (r.opWord r.pc.toNat)).toNat →
      step s = .next { r with errCode := .illegalOp, errPc := r.pc, engine := .fault, todo := [] }) ∧
    (r.opWord r.pc.toNat = 0 → step s = .next { r with engine := .done, todo := [] })

/-- R108: a must-be-zero bit set raises ILLEGAL_OP before any action, even where the op's words would not fit. -/
def Obligations.MustBeZeroBitFaults : Prop :=
  ∀ (s r : State) (o : Opcode), EngineTurn s r → r.running = true → r.pc.toNat < r.params.opmemWords →
    headerOpc (r.opWord r.pc.toNat) = o.opc → r.opWord r.pc.toNat &&& (o.mask &&& 0x0FFFFFFF) ≠ 0 →
    step s = .next { r with errCode := .illegalOp, errPc := r.pc, engine := .fault, todo := [] }

/-- R256: STREAM_OVERRUN, where PC is at or past the end of op memory, and where a legal op's words pass it. -/
def Obligations.OverrunFaults : Prop :=
  ∀ s r : State, EngineTurn s r → r.running = true →
    (r.params.opmemWords ≤ r.pc.toNat ∨
      ∃ o : Opcode, r.opWord r.pc.toNat &&& o.mask = o.pattern ∧
        r.params.opmemWords < r.pc.toNat + o.size (headerCount (r.opWord r.pc.toNat))) →
    step s = .next { r with errCode := .streamOverrun, errPc := r.pc, engine := .fault, todo := [] }

/-! ### Sequencer (41_sequencer.md) -/

/-- R140: START loads PC from ENTRY, clears the fault registers and POLLS and enters RUN from IDLE, DONE and FAULT, and
does nothing in RUN and WAIT. -/
def Obligations.StartBeginsARun : Prop :=
  ∀ (s r : State) (v : Word), HostTurn s (.write .word 0x000 v) r → v.getLsbD 0 = true → v.getLsbD 1 = false →
    (r.running = false →
      step s = .next { r with pc := r.entry, errCode := .none, errPc := 0, polls := 0, engine := .run }) ∧
    (r.running = true → step s = .next r)

/-- In IDLE, DONE and FAULT the engine performs nothing (R141); that such a step leaves the state as it is is the
model's choice (log 4). -/
def Obligations.StoppedEngineDoesNothing : Prop :=
  ∀ s r : State, EngineTurn s r → r.engine = .idle ∨ r.engine = .done ∨ r.engine = .fault → step s = .next r

/-- R145: END sets STATE to DONE and changes nothing else. -/
def Obligations.EndStopsTheRun : Prop :=
  ∀ s : State, exec .endOp s = .next { s with engine := .done, todo := [] }

/-- R146: SETCFG loads the three flags and the three words, and completes: PC + 4, STATE = RUN. Nothing else changes. -/
def Obligations.SetcfgLoadsTheConfiguration : Prop :=
  ∀ (s : State) (a b c : Bit) (l p g : Word),
    exec (.setcfg a b c l p g) s = .next { s with
      perByte := a, invert := b, expand := c, frameLen := l, pollInterval := p, byteGap := g,
      pc := s.pc + 4, engine := .run, todo := [] }

/-- The decode stage of every op that has actions (R141, log 1): the actions of its rule become the progress, WAIT also
sets STATE to WAIT and POLLS to 0 (R203), and nothing else changes. A FRAME comes this far where its length is FRAME_LEN. -/
def Obligations.OpsBegin : Prop :=
  ∀ s : State, s.todo = [] →
    (∀ a b, exec (.reset a b) s = .next { s with todo := [.setRST 0, .delay a, .setRST 1, .delay b] }) ∧
    (∀ c, exec (.cmd c) s = .next { s with todo := [.setDC .cmd, .xfer [c]] }) ∧
    (∀ p, exec (.data p) s = .next { s with todo := .setDC .data :: wireActions s.perByte s.byteGap p }) ∧
    (∀ c p, exec (.cmdData c p) s = .next { s with
      todo := [.setDC .cmd, .xfer [c], .setDC .data] ++ wireActions s.perByte s.byteGap p }) ∧
    (∀ v n, exec (.fill v n) s = .next { s with
      todo := .setDC .data :: wireActions s.perByte s.byteGap
        (List.replicate n.toNat (if s.invert = 1 then v ^^^ 0xFF else v)) }) ∧
    (∀ c p, p.length = s.frameLen.toNat → exec (.frame c p) s = .next { s with
      todo := [.setDC .cmd, .xfer [c], .setDC .data] ++
        wireActions s.perByte s.byteGap (transform s.invert s.expand p) }) ∧
    (∀ idle, exec (.wait idle) s = .next { s with engine := .wait, polls := 0, todo := [.poll] })

/-- R141: an action answered without `err` goes on to the op's next action, and the op completes in the same step where
it was the last: PC + size(op), STATE = RUN. For every op with actions but WAIT. -/
def Obligations.OpsGoOn : Prop :=
  ∀ (i : Instr) (s : State) (a : Action) (rest : List Action), i.wellFormed = true →
    i.opcode ∈ [Opcode.reset, .cmd, .data, .cmdData, .fill, .frame] → s.todo = a :: rest → s.answer a ≠ .err →
    exec i s = .next (if rest = [] then
        { s.perform a with pc := s.pc + BitVec.ofNat 32 i.size, engine := .run, todo := [] }
      else { s.perform a with todo := rest })

/-- An action of an op that is answered `err` ends it: the event is recorded, PIN_ERROR or BUS_ERROR is raised with
ERR_PC = PC, no later action starts, and PC, the configuration and the lines stay (R252, R253, R259). A failed POLL counts
in POLLS (R201). That BUSY_SYNC then holds the level drawn is log 9. -/
def Obligations.FailedActionRaisesItsFault : Prop :=
  ∀ (i : Instr) (s : State) (a : Action) (rest : List Action), i.wellFormed = true →
    i.opcode ∈ [Opcode.reset, .cmd, .data, .cmdData, .fill, .frame, .wait] → s.todo = a :: rest →
    a.asks = true → s.nextDraw.fails = true →
    exec i s = .next { s with
      trace := s.trace ++ [.act a .err],
      errCode := (match a with | .xfer _ => .busError | _ => .pinError), errPc := s.pc, engine := .fault, todo := [],
      polls := if a = .poll ∧ s.polls ≠ 0xFFFFFFFF then s.polls + 1 else s.polls,
      busySync := if a = .poll then s.nextDraw.level else s.busySync,
      script := s.script.tail, draws := s.draws + 1 }

/-- Faults are precise (R259): where the first `k` actions of an op are answered `ok` and the next fails, TRACE gains
exactly those and the failed one, and the op ends there with its fault, PC unchanged. The first clause has the actions that
the op begins with, which for WAIT is its first POLL; the second has a later POLL of a WAIT, after `n` busy reads, and
POLLS counts the failed read (R203). The counts of engine steps include the decode stage (log 1). -/
def Obligations.FaultsArePrecise : Prop :=
  (∀ (i : Instr) (s : State) (k : Nat) (h : k < (opActions s i).length), s.todo = [] → i.wellFormed = true →
    (∀ c p, i = .frame c p → p.length = s.frameLen.toNat) →
    s.answersOk (askCount ((opActions s i).take k)) → ((opActions s i)[k]).asks = true →
    (s.drawAt (askCount ((opActions s i).take k))).fails = true →
    ∃ t, opRun (k + 2) i s = .next t ∧ t.engine = .fault ∧ t.todo = [] ∧
      t.errCode = ((opActions s i)[k]).failCode ∧ t.errPc = s.pc ∧ t.pc = s.pc ∧
      t.trace = s.trace ++ okEvents ((opActions s i).take k) ++ [.act (opActions s i)[k] .err]) ∧
  ∀ (s : State) (idle : Bit) (n : Nat), s.todo = [] →
    (∀ k < n, (s.drawAt k).fails = false ∧ (s.drawAt k).level ≠ idle) → (s.drawAt n).fails = true →
    ∃ t, opRun (2 * n + 2) (.wait idle) s = .next t ∧ t.engine = .fault ∧ t.todo = [] ∧
      t.errCode = .pinError ∧ t.errPc = s.pc ∧ t.pc = s.pc ∧
      (n + 1 ≤ 0xFFFFFFFF → t.polls = BitVec.ofNat 32 (n + 1)) ∧
      t.trace = s.trace ++ busyEvents idle s.pollInterval n ++ [.act .poll .err]

/-- R143: PC changes only by START, by an op's completion (PC + size), and by a reset. -/
def Obligations.PcChangesOnlySo : Prop :=
  ∀ s t : State, step s = .next t → NoPowerOn s → ¬ SoftResetTurn s → t.pc ≠ s.pc →
    (∃ v rest, s.schedule = .host (.write .word 0x000 v) :: rest ∧ v.getLsbD 0 = true ∧ s.running = false ∧
      t.pc = s.entry) ∨
    (∃ r i, EngineTurn s r ∧ r.running = true ∧ r.fetch = .ok i ∧ i ≠ .endOp ∧
      t.pc = s.pc + BitVec.ofNat 32 i.size ∧ t.engine = .run ∧ t.todo = [])

/-! ### Actions (00_scope.md R14, 42_framer.md R160, R161) -/

/-- What each action records and writes (R160, R161, R180, R14): a SETDC drives DC to the level of its select value and
sets DC_VALID where it succeeds (R43), a SETRST drives RST (R44), and a failed one changes neither; an XFER and a wait
write no register. A POLL counts in POLLS up to 0xFFFFFFFF, whatever its answer (R201, R36); that it leaves the level it
drew in BUSY_SYNC is log 9. Each of SETDC, SETRST, XFER and POLL takes one answer of the environment (log 3). -/
def Obligations.ActionsDriveTheLines : Prop :=
  ∀ s : State,
    (∀ k, s.perform (.setDC k) = { s with
      dcOut := if s.nextDraw.fails then s.dcOut
        else if k = .cmd then s.params.dcCmdLevel else 1 - s.params.dcCmdLevel,
      dcValid := if s.nextDraw.fails then s.dcValid else 1,
      trace := s.trace ++ [.act (.setDC k) (if s.nextDraw.fails then .err else .ok)],
      script := s.script.tail, draws := s.draws + 1 }) ∧
    (∀ l, s.perform (.setRST l) = { s with
      rstOut := if s.nextDraw.fails then s.rstOut else l,
      trace := s.trace ++ [.act (.setRST l) (if s.nextDraw.fails then .err else .ok)],
      script := s.script.tail, draws := s.draws + 1 }) ∧
    (∀ b, s.perform (.xfer b) = { s with
      trace := s.trace ++ [.act (.xfer b) (if s.nextDraw.fails then .err else .ok)],
      script := s.script.tail, draws := s.draws + 1 }) ∧
    s.perform .poll = { s with
      polls := if s.polls = 0xFFFFFFFF then s.polls else s.polls + 1, busySync := s.nextDraw.level,
      trace := s.trace ++ [.act .poll (if s.nextDraw.fails then .err else .level s.nextDraw.level)],
      script := s.script.tail, draws := s.draws + 1 } ∧
    (∀ d, s.perform (.delay d) = { s with trace := s.trace ++ [.act (.delay d) .ok] }) ∧
    (∀ d, s.perform (.yield d) = { s with trace := s.trace ++ [.act (.yield d) .ok] })

/-! ### Framer (42_framer.md) -/

/-- R162: Stream(L) is no action for no bytes, one transaction in burst mode, and in per-byte mode one transaction a
byte, with a DELAY(BYTE_GAP_US) between each two where that is not 0. -/
def Obligations.StreamFramesItsBytes : Prop :=
  ∀ (perByte : Bit) (gap : Word) (bytes : List Byte), stream perByte gap bytes = wireActions perByte gap bytes

/-- In per-byte mode with a gap, N bytes give N XFER and N - 1 DELAY, and the bytes on the wire are those of the stream
in order, in either framing (R162, R164, 20_memory.md R79). -/
def Obligations.StreamKeepsItsBytes : Prop :=
  ∀ (perByte : Bit) (gap : Word) (bytes : List Byte),
    (stream perByte gap bytes).flatMap (fun a => match a with | .xfer b => b | _ => []) = bytes ∧
    (perByte = 1 → (stream perByte gap bytes).countP (fun a => match a with | .xfer _ => true | _ => false) = bytes.length) ∧
    (perByte = 1 → gap ≠ 0 → (stream perByte gap bytes).count (.delay gap) = bytes.length - 1)

/-- R163: CMD, with all answers ok: SETDC(CMD) and one transaction of the command byte, whatever PER_BYTE is. -/
def Obligations.CmdSendsItsByte : Prop :=
  ∀ (s : State) (c : Byte), s.todo = [] → s.answersOk 2 →
    opRun 3 (.cmd c) s = .next { s with
      trace := s.trace ++ [.act (.setDC .cmd) .ok, .act (.xfer [c]) .ok],
      dcOut := s.params.dcCmdLevel, dcValid := 1, pc := s.pc + 1, engine := .run, todo := [],
      script := s.script.drop 2, draws := s.draws + 2 }

/-- R164: DATA, with all answers ok: SETDC(DATA) and the stream of its payload, unchanged. -/
def Obligations.DataSendsItsPayload : Prop :=
  ∀ (s : State) (p : List Byte), s.todo = [] →
    let acts := Action.setDC .data :: wireActions s.perByte s.byteGap p
    s.answersOk (askCount acts) →
    opRun (1 + acts.length) (.data p) s = .next { s with
      trace := s.trace ++ okEvents acts,
      dcOut := 1 - s.params.dcCmdLevel, dcValid := 1, pc := s.pc + BitVec.ofNat 32 (1 + (p.length + 3) / 4),
      engine := .run, todo := [], script := s.script.drop (askCount acts), draws := s.draws + askCount acts }

/-- R165: CMD_DATA, with all answers ok: the actions of CMD, then those of DATA, and no other between. -/
def Obligations.CmdDataSendsBoth : Prop :=
  ∀ (s : State) (c : Byte) (p : List Byte), s.todo = [] →
    let acts := [Action.setDC .cmd, .xfer [c], .setDC .data] ++ wireActions s.perByte s.byteGap p
    s.answersOk (askCount acts) →
    opRun (1 + acts.length) (.cmdData c p) s = .next { s with
      trace := s.trace ++ okEvents acts,
      dcOut := 1 - s.params.dcCmdLevel, dcValid := 1, pc := s.pc + BitVec.ofNat 32 (1 + (p.length + 3) / 4),
      engine := .run, todo := [], script := s.script.drop (askCount acts), draws := s.draws + askCount acts }

/-- The frame of one engine step of CMD, DATA, CMD_DATA, FILL and FRAME: of the registers only DC_OUT and DC_VALID can
change, by a SETDC that succeeds, and, where the step ends in FAULT, ERR_CODE and ERR_PC; RST_OUT, POLLS, BUSY_SYNC,
ENTRY, the configuration and every byte of op memory stay. PC, STATE, TRACE and the progress may change. -/
def Obligations.BusOpsFrame : Prop :=
  ∀ (i : Instr) (s t : State), i.opcode ∈ [Opcode.cmd, .data, .cmdData, .fill, .frame] → i.wellFormed = true →
    s.inOp i → exec i s = .next t →
    SameRest s t ∧ t.rstOut = s.rstOut ∧ t.polls = s.polls ∧ t.busySync = s.busySync ∧
    (t.engine ≠ .fault → t.errCode = s.errCode ∧ t.errPc = s.errPc) ∧
    ((t.dcOut = s.dcOut ∧ t.dcValid = s.dcValid) ∨
      ∃ k rest, s.todo = .setDC k :: rest ∧ s.answer (.setDC k) = .ok ∧ t.dcValid = 1 ∧
        t.dcOut = if k = .cmd then s.params.dcCmdLevel else 1 - s.params.dcCmdLevel)

/-! ### Reset-pulse timer (43_reset_timer.md) -/

/-- R181: RESET, with all answers ok: the reset line low, the assert delay, the line high, the settle delay. Where the
first line write fails, nothing else happens and RST_OUT stays; where the second fails, the assert phase has run and
RST_OUT stays 0. -/
def Obligations.ResetPulsesTheLine : Prop :=
  ∀ (s : State) (a b : Word), s.todo = [] →
    (s.answersOk 2 → opRun 5 (.reset a b) s = .next { s with
      trace := s.trace ++ [.act (.setRST 0) .ok, .act (.delay a) .ok, .act (.setRST 1) .ok, .act (.delay b) .ok],
      rstOut := 1, pc := s.pc + 3, engine := .run, todo := [], script := s.script.drop 2, draws := s.draws + 2 }) ∧
    ((s.drawAt 0).fails = true → opRun 2 (.reset a b) s = .next { s with
      trace := s.trace ++ [.act (.setRST 0) .err], errCode := .pinError, errPc := s.pc, engine := .fault, todo := [],
      script := s.script.tail, draws := s.draws + 1 }) ∧
    ((s.drawAt 0).fails = false → (s.drawAt 1).fails = true → opRun 4 (.reset a b) s = .next { s with
      trace := s.trace ++ [.act (.setRST 0) .ok, .act (.delay a) .ok, .act (.setRST 1) .err],
      rstOut := 0, errCode := .pinError, errPc := s.pc, engine := .fault, todo := [],
      script := s.script.drop 2, draws := s.draws + 2 })

/-- R182: the frame of one engine step of RESET: only RST_OUT, PC and STATE, the fault registers where it ends in FAULT,
TRACE and the progress can change. DC, BUSY_SYNC, POLLS, ENTRY, the configuration and every byte of op memory stay. -/
def Obligations.ResetFrame : Prop :=
  ∀ (a b : Word) (s t : State), s.inOp (.reset a b) → exec (.reset a b) s = .next t →
    SameRest s t ∧ t.dcOut = s.dcOut ∧ t.dcValid = s.dcValid ∧ t.polls = s.polls ∧ t.busySync = s.busySync ∧
    (t.engine ≠ .fault → t.errCode = s.errCode ∧ t.errPc = s.errPc) ∧
    (∀ bytes r, .act (.xfer bytes) r ∈ t.trace → .act (.xfer bytes) r ∈ s.trace)

/-! ### Busy-line synchronizer (44_busy_sync.md) -/

/-- R201, R203: the poll of a WAIT that is answered counts, saturating at 0xFFFFFFFF (R36); the idle level completes the
WAIT in the same step, and the busy level goes on to a YIELD(POLL_INTERVAL_US) and another poll. The YIELD never fails
and goes on to that poll. That BUSY_SYNC holds the level polled is log 9. -/
def Obligations.WaitPolls : Prop :=
  ∀ (s : State) (idle : Bit),
    (s.todo = [.poll] → s.nextDraw.fails = false → s.nextDraw.level = idle → exec (.wait idle) s = .next { s with
      trace := s.trace ++ [.act .poll (.level idle)], busySync := idle,
      polls := if s.polls = 0xFFFFFFFF then s.polls else s.polls + 1,
      pc := s.pc + 1, engine := .run, todo := [], script := s.script.tail, draws := s.draws + 1 }) ∧
    (s.todo = [.poll] → s.nextDraw.fails = false → s.nextDraw.level ≠ idle → exec (.wait idle) s = .next { s with
      trace := s.trace ++ [.act .poll (.level s.nextDraw.level)], busySync := s.nextDraw.level,
      polls := if s.polls = 0xFFFFFFFF then s.polls else s.polls + 1,
      todo := [.yield s.pollInterval, .poll], script := s.script.tail, draws := s.draws + 1 }) ∧
    (∀ d, s.todo = [.yield d, .poll] → exec (.wait idle) s = .next { s with
      trace := s.trace ++ [.act (.yield d) .ok], todo := [.poll] })

/-- R210: where the first N polls read the busy level and the next the idle level, WAIT completes after exactly N + 1
polls and N yields, with POLLS = N + 1 (below its limit), and until then STATE is WAIT and PC stays. The
counts of engine steps include the decode stage (log 1); that BUSY_SYNC ends at the idle level is log 9. -/
def Obligations.WaitTakesOnePollMore : Prop :=
  ∀ (s : State) (idle : Bit) (n : Nat), s.todo = [] → n + 1 ≤ 0xFFFFFFFF →
    (∀ k ≤ n, (s.drawAt k).fails = false) → (∀ k < n, (s.drawAt k).level ≠ idle) → (s.drawAt n).level = idle →
    opRun (2 * n + 2) (.wait idle) s = .next { s with
      trace := s.trace ++ waitEvents idle s.pollInterval n, polls := BitVec.ofNat 32 (n + 1), busySync := idle,
      pc := s.pc + 1, engine := .run, todo := [], script := s.script.drop (n + 1), draws := s.draws + (n + 1) } ∧
    ∀ m, 1 ≤ m → m ≤ 2 * n + 1 → ∃ t, opRun m (.wait idle) s = .next t ∧ t.engine = .wait ∧ t.pc = s.pc

/-- No timeout (R204): after any number of busy polls, however many, WAIT is still in progress. The counts
of engine steps include the decode stage (log 1). -/
def Obligations.WaitHasNoTimeout : Prop :=
  ∀ (s : State) (idle : Bit) (n : Nat), s.todo = [] →
    (∀ k < n, (s.drawAt k).fails = false ∧ (s.drawAt k).level ≠ idle) →
    ∀ m, 1 ≤ m → m ≤ 2 * n + 1 → ∃ t, opRun m (.wait idle) s = .next t ∧ t.engine = .wait ∧ t.pc = s.pc ∧ t.todo ≠ []

/-- R207: the frame of one engine step of WAIT: no line changes, no transaction is made; only STATE, POLLS, PC,
BUSY_SYNC, TRACE, the progress and, where it ends in FAULT, the fault registers can change. -/
def Obligations.WaitFrame : Prop :=
  ∀ (idle : Bit) (s t : State), s.todo = [] ∨ s.todo = [.poll] ∨ (∃ d, s.todo = [.yield d, .poll]) →
    exec (.wait idle) s = .next t →
    SameRest s t ∧ t.dcOut = s.dcOut ∧ t.dcValid = s.dcValid ∧ t.rstOut = s.rstOut ∧
    (t.engine ≠ .fault → t.errCode = s.errCode ∧ t.errPc = s.errPc) ∧
    (∀ bytes r, .act (.xfer bytes) r ∈ t.trace → .act (.xfer bytes) r ∈ s.trace)

/-! ### Frame-burst writer (45_frame_writer.md) -/

/-- R221: expansion gives four bytes for each; byte `j` of the four carries source bit 7 - 2j in its high nibble and
source bit 6 - 2j in its low nibble, as the symbol 0b11 or 0b00 in the nibble's low two bits. -/
def Obligations.ExpansionLaysOutSymbols : Prop :=
  ∀ p : List Byte, (expandBytes p).length = 4 * p.length ∧
    ∀ k (h : k < p.length) (j : Nat), j < 4 →
      (expandBytes p)[4 * k + j]? = some
        ((if (p[k]).getLsbD (7 - 2 * j) then 0x30 else 0x00) ||| (if (p[k]).getLsbD (6 - 2 * j) then 0x03 else 0x00))

/-- R222, R220: expansion first where EXPAND is 1, then each byte complemented where INVERT is 1. EXPAND does not apply
to FILL. -/
def Obligations.TransformExpandsThenInverts : Prop :=
  (∀ (invert expand : Bit) (p : List Byte),
    transform invert expand p =
      (if expand = 1 then expandBytes p else p).map (fun b => if invert = 1 then b ^^^ 0xFF else b)) ∧
  ∀ (s : State) (expand : Bit) (v : Byte) (n : BitVec 20),
    opActions { s with expand := expand } (.fill v n) = opActions s (.fill v n)

/-- R223: FILL, with all answers ok: SETDC(DATA) and the stream of `count` copies of the value, inverted where INVERT
is 1, not expanded. -/
def Obligations.FillRepeatsItsByte : Prop :=
  ∀ (s : State) (v : Byte) (n : BitVec 20), s.todo = [] →
    let acts := Action.setDC .data :: wireActions s.perByte s.byteGap
      (List.replicate n.toNat (if s.invert = 1 then v ^^^ 0xFF else v))
    s.answersOk (askCount acts) →
    opRun (1 + acts.length) (.fill v n) s = .next { s with
      trace := s.trace ++ okEvents acts,
      dcOut := 1 - s.params.dcCmdLevel, dcValid := 1, pc := s.pc + 1,
      engine := .run, todo := [], script := s.script.drop (askCount acts), draws := s.draws + askCount acts }

/-- R224: FRAME of FRAME_LEN bytes, with all answers ok: the command byte as it stands, then the stream of the transformed
payload. -/
def Obligations.FrameSendsItsBuffer : Prop :=
  ∀ (s : State) (c : Byte) (p : List Byte), s.todo = [] → p.length = s.frameLen.toNat →
    let acts := [Action.setDC .cmd, .xfer [c], .setDC .data] ++
      wireActions s.perByte s.byteGap (transform s.invert s.expand p)
    s.answersOk (askCount acts) →
    opRun (1 + acts.length) (.frame c p) s = .next { s with
      trace := s.trace ++ okEvents acts,
      dcOut := 1 - s.params.dcCmdLevel, dcValid := 1, pc := s.pc + BitVec.ofNat 32 (1 + (p.length + 3) / 4),
      engine := .run, todo := [], script := s.script.drop (askCount acts), draws := s.draws + askCount acts }

/-- R225, R254: a FRAME whose length is not FRAME_LEN raises PRECONDITION at decode with no side effect but the fault
registers. -/
def Obligations.FrameLengthMismatchFailsClosed : Prop :=
  ∀ (s : State) (c : Byte) (p : List Byte), s.todo = [] → p.length ≠ s.frameLen.toNat →
    exec (.frame c p) s = .next { s with errCode := .precondition, errPc := s.pc, engine := .fault, todo := [] }

/-- R226: a FRAME has the actions of CMD and then FILL exactly where its transformed buffer is `count` copies of the
transformed byte, as it is with EXPAND = 0 where the buffer is one repeated byte; and then, with all answers ok, the FRAME
leaves the same TRACE as the CMD and the FILL. The counts of engine steps include the decode stages (log 1). -/
def Obligations.ClearAndFrameLeaveTheSameTrace : Prop :=
  ∀ (s : State) (c w : Byte) (n : BitVec 20) (p : List Byte),
    let same := transform s.invert s.expand p = List.replicate n.toNat (if s.invert = 1 then w ^^^ 0xFF else w)
    (opActions s (.frame c p) = opActions s (.cmd c) ++ opActions s (.fill w n) ↔ same) ∧
    (s.expand = 0 → p = List.replicate n.toNat w → same) ∧
    (same → s.todo = [] → p.length = s.frameLen.toNat → s.answersOk (askCount (opActions s (.frame c p))) →
      ∃ t u v, opRun (1 + (opActions s (.frame c p)).length) (.frame c p) s = .next t ∧
        opRun 3 (.cmd c) s = .next u ∧ opRun (1 + (opActions s (.fill w n)).length) (.fill w n) u = .next v ∧
        t.todo = [] ∧ u.todo = [] ∧ v.todo = [] ∧ t.trace = v.trace)

/-! ### The host's side (10_state.md, 20_memory.md) -/

/-- R47: what an aligned 32-bit read of each register returns; nothing but the host's data changes. A read of LINES sees a
fresh BUSY_SYNC (R51), whatever level that is. -/
def Obligations.HostReadsTheWindow : Prop :=
  ∀ (s r : State) (offset : Nat), HostTurn s (.read .word offset) r →
    (∀ v : Word, (offset, v) ∈ [(0x000, 0), (0x004, r.statusWord), (0x008, r.pc), (0x00C, r.entry), (0x010, r.errPc),
        (0x014, r.polls), (0x018, r.cfgWord), (0x01C, r.frameLen), (0x020, r.pollInterval), (0x024, r.byteGap)] →
      step s = .next { r with readData := some v }) ∧
    (offset = 0x028 → ∃ l : Bit, step s = .next { r with
      busySync := l, levels := r.levels + 1, readData := some (0#28 ++ l ++ r.rstOut ++ r.dcValid ++ r.dcOut) })

/-- R49, R50: the fields of STATUS and CFG, with the codes of R31 and R251, and their reserved bits. -/
def Obligations.StatusAndCfgLayout : Prop :=
  ∀ s : State,
    s.statusWord.toNat = (match s.engine with | .idle => 0 | .run => 1 | .wait => 2 | .done => 3 | .fault => 4) +
      256 * (match s.errCode with
        | .none => 0 | .busError => 1 | .pinError => 2 | .unsupported => 3 | .precondition => 4 | .illegalOp => 5
        | .streamOverrun => 6) ∧
    s.cfgWord.toNat = s.perByte.toNat + 2 * s.invert.toNat + 4 * s.expand.toNat

/-- R76: a host read that is performed changes no register, no line, no byte of op memory and not TRACE: all that can
change is the host's data and, for LINES, the sampled BUSY_SYNC. -/
def Obligations.HostReadsHaveNoSideEffect : Prop :=
  ∀ (s r t : State) (width : AccessWidth) (offset : Nat), HostTurn s (.read width offset) r → step s = .next t →
    { t with readData := r.readData, busySync := r.busySync, levels := r.levels } = r ∧
    (offset ≠ 0x028 → t.busySync = r.busySync ∧ t.levels = r.levels)

/-- R52, R70: an aligned 32-bit access in a place the map does not name reads 0 and writes nothing, and a write to a
read-only register is ignored. -/
def Obligations.ReservedOffsets : Prop :=
  ∀ (s r : State) (offset : Nat), offset % 4 = 0 → offset < 0x20000 →
    (offset < 0x10000 ∨ 0x10000 + 4 * r.params.opmemWords ≤ offset) →
    (0x02C ≤ offset → HostTurn s (.read .word offset) r → step s = .next { r with readData := some 0 }) ∧
    (∀ v, offset ≠ 0x000 → offset ≠ 0x00C → HostTurn s (.write .word offset v) r → step s = .next r)

/-- R33, R54: a write of ENTRY stores all 32 bits at once, whatever STATE is, and changes nothing else. -/
def Obligations.EntryIsWritten : Prop :=
  ∀ (s r : State) (v : Word), HostTurn s (.write .word 0x00C v) r → step s = .next { r with entry := v }

/-- R74: a host write of op-memory word `i` stores it in IDLE, DONE and FAULT, leaving every other word and everything
else, and is dropped in RUN and WAIT; a read returns the word in any state. -/
def Obligations.OpMemoryAccess : Prop :=
  ∀ (s r : State) (i : Nat) (v : Word), i < r.params.opmemWords → r.params.opmemWords ≤ 16384 →
    (HostTurn s (.write .word (0x10000 + 4 * i) v) r →
      (r.running = true → step s = .next r) ∧
      (r.running = false → ∃ t, step s = .next t ∧ t.opWord i = v ∧ (∀ j, j ≠ i → t.opWord j = r.opWord j) ∧
        { t with mem := r.mem } = r)) ∧
    (HostTurn s (.read .word (0x10000 + 4 * i)) r → step s = .next { r with readData := some (r.opWord i) })

/-- R73: an access of another width or at an unaligned offset is refused; the model also stops, as a fault of its own, on
an offset past the 0x20000 bytes of the address space (R70). -/
def Obligations.UnsupportedAccessesStop : Prop :=
  ∀ (s r : State) (a : HostAccess) (width : AccessWidth) (offset : Nat), HostTurn s a r →
    (a = .read width offset ∨ ∃ v, a = .write width offset v) →
    (0x20000 ≤ offset → step s = .fault (.outsideAddressSpace offset)) ∧
    (offset < 0x20000 → width ≠ .word → step s = .refused (.accessWidth width)) ∧
    (offset < 0x20000 → width = .word → offset % 4 ≠ 0 → step s = .refused (.unalignedAccess offset))

/-- R48, R291: a write of CTRL with bit 1 set, whatever bit 0, is an SRESET: every register at its reset value, op memory
as it was, the marker in TRACE. DC_OUT and BUSY_SYNC may be anything. A write with both bits clear does nothing. -/
def Obligations.SoftResetResets : Prop :=
  ∀ (s r : State) (v : Word), HostTurn s (.write .word 0x000 v) r →
    (v.getLsbD 1 = true → ∃ t, step s = .next t ∧
      t.engine = .idle ∧ t.pc = 0 ∧ t.entry = 0 ∧ t.errCode = .none ∧ t.errPc = 0 ∧ t.polls = 0 ∧
      t.perByte = 0 ∧ t.invert = 0 ∧ t.expand = 0 ∧ t.frameLen = 0 ∧ t.pollInterval = 0 ∧ t.byteGap = 0 ∧
      t.dcValid = 0 ∧ t.rstOut = 1 ∧ t.todo = [] ∧ t.mem = r.mem ∧ (∀ a, t.byteAt a = r.byteAt a) ∧
      t.trace = r.trace ++ [.sreset] ∧ t.params = r.params) ∧
    (v.getLsbD 1 = false → v.getLsbD 0 = false → step s = .next r)

/-- R291: a power-on reset: every register at its reset value, TRACE empty, nothing known of the op memory. -/
def Obligations.PowerOnResets : Prop :=
  ∀ (s : State) (rest : List Turn), s.schedule = .powerOn :: rest → ∃ t, step s = .next t ∧
    t.engine = .idle ∧ t.pc = 0 ∧ t.entry = 0 ∧ t.errCode = .none ∧ t.errPc = 0 ∧ t.polls = 0 ∧
    t.perByte = 0 ∧ t.invert = 0 ∧ t.expand = 0 ∧ t.frameLen = 0 ∧ t.pollInterval = 0 ∧ t.byteGap = 0 ∧
    t.dcValid = 0 ∧ t.rstOut = 1 ∧ t.todo = [] ∧ t.mem = [] ∧ t.trace = [] ∧ t.params = s.params

/-- R56: the state after power-on reset, with the default parameters of R10. -/
def Obligations.ResetState : Prop :=
  State.reset.engine = .idle ∧ State.reset.pc = 0 ∧ State.reset.entry = 0 ∧ State.reset.errCode = .none ∧
  State.reset.errPc = 0 ∧ State.reset.polls = 0 ∧ State.reset.perByte = 0 ∧ State.reset.invert = 0 ∧
  State.reset.expand = 0 ∧ State.reset.frameLen = 0 ∧ State.reset.pollInterval = 0 ∧ State.reset.byteGap = 0 ∧
  State.reset.dcValid = 0 ∧ State.reset.rstOut = 1 ∧ State.reset.todo = [] ∧ State.reset.trace = [] ∧
  State.reset.mem = [] ∧ State.reset.params = { opmemWords := 16384, dcCmdLevel := 0, syncStages := 2 }

/-! ### Whole-machine rules -/

/-- The invariant of the machine holds after reset. -/
def Obligations.ResetMeetsTheInvariant : Prop := Inv State.reset

/-- From every state that meets the invariant, a step of the machine, whosever turn it is, gives one that meets it. -/
def Obligations.EveryStepKeepsTheInvariant : Prop := ∀ s t : State, Inv s → step s = .next t → Inv t

/-- R142, R15: a step other than a power-on reset leaves TRACE as it is or appends one event to it; an event is appended
only by a running engine or, the marker, by an SRESET (R148). -/
def Obligations.OneEventPerStep : Prop :=
  ∀ s t : State, step s = .next t → NoPowerOn s →
    t.trace = s.trace ∨
    (∃ a r' r, EngineTurn s r ∧ r.running = true ∧ t.trace = s.trace ++ [.act a r']) ∨
    (SoftResetTurn s ∧ t.trace = s.trace ++ [.sreset])

/-- R148: DC_OUT, DC_VALID and RST_OUT change only by an action of a running engine or by a reset. -/
def Obligations.OnlyOpsDriveTheLines : Prop :=
  ∀ s t : State, step s = .next t → NoPowerOn s → ¬ SoftResetTurn s →
    (t.dcOut ≠ s.dcOut ∨ t.dcValid ≠ s.dcValid ∨ t.rstOut ≠ s.rstOut) →
    ∃ r a, EngineTurn s r ∧ r.running = true ∧ t.trace = s.trace ++ [.act a .ok]

/-- R57: only SETCFG and a reset write the configuration. -/
def Obligations.OnlySetcfgConfigures : Prop :=
  ∀ s t : State, step s = .next t → NoPowerOn s → ¬ SoftResetTurn s →
    (∀ r a b c l p g, EngineTurn s r → r.running = true → r.fetch ≠ .ok (.setcfg a b c l p g)) →
    t.perByte = s.perByte ∧ t.invert = s.invert ∧ t.expand = s.expand ∧ t.frameLen = s.frameLen ∧
    t.pollInterval = s.pollInterval ∧ t.byteGap = s.byteGap

/-- R75, R85: the engine never writes op memory, and while it runs no step but a power-on reset changes any byte of it. -/
def Obligations.OpMemoryIsFixedWhileRunning : Prop :=
  ∀ s t : State, step s = .next t → NoPowerOn s → (s.running = true ∨ ∃ r, EngineTurn s r) →
    t.mem = s.mem ∧ ∀ a, t.byteAt a = s.byteAt a

/-- R261: FAULT is sticky: from it only a host write of START or SRESET, or a power-on reset, leads out, and until then
ERR_CODE, ERR_PC and PC stay. -/
def Obligations.FaultIsSticky : Prop :=
  ∀ s t : State, s.engine = .fault → step s = .next t → NoPowerOn s →
    (∀ v rest, s.schedule = .host (.write .word 0x000 v) :: rest → v.getLsbD 0 = false ∧ v.getLsbD 1 = false) →
    t.engine = .fault ∧ t.errCode = s.errCode ∧ t.errPc = s.errPc ∧ t.pc = s.pc ∧ t.trace = s.trace

/-- While the engine runs, no host access but an SRESET changes STATE, PC, POLLS, the progress or TRACE (R205 for a WAIT;
R53, R74, R140). -/
def Obligations.OnlySoftResetEndsARun : Prop :=
  ∀ (s r t : State) (a : HostAccess), s.running = true → HostTurn s a r → step s = .next t → ¬ SoftResetTurn s →
    t.engine = s.engine ∧ t.pc = s.pc ∧ t.polls = s.polls ∧ t.todo = s.todo ∧ t.trace = s.trace

/-- Engine steps within one op are steps of the machine: where the engine runs the decoded op `i` from its decode stage
and stays inside it, `n` steps of the machine are `n` engine steps of `i`. -/
def Obligations.OpRunIsARunOfTheMachine : Prop :=
  ∀ (n : Nat) (i : Instr) (s : State), s.schedule = [] → s.running = true → s.fetch = .ok i → s.todo = [] →
    (∀ k t, 0 < k → k < n → opRun k i s = .next t → t.todo ≠ []) → steps n s = opRun n i s

/-- R147: two runs of the engine from states that agree on the registers, the op memory and the environment's answers give
the same events and end in states that agree. -/
def Obligations.RunsAreDetermined : Prop :=
  ∀ (n : Nat) (s t s' : State), SameRun s t → s.schedule = [] → t.schedule = [] → steps n s = .next s' →
    ∃ t' events, steps n t = .next t' ∧ SameRun s' t' ∧ s'.trace = s.trace ++ events ∧ t'.trace = t.trace ++ events

/-- R309: every op but WAIT ends, whatever the environment answers, after at most 3 + 8 * COUNT_MAX engine steps (its
decode stage, log 1, and at most 2 + 8 * COUNT_MAX actions): completed, stopped or in FAULT. -/
def Obligations.OnlyWaitCanHang : Prop :=
  ∀ (i : Instr) (s : State), s.todo = [] → i.wellFormed = true → (∀ idle, i ≠ .wait idle) →
    ∃ n t, n ≤ 3 + 8 * Config.countMax ∧ opRun n i s = .next t ∧ t.todo = [] ∧
      (t.engine = .fault ∧ t.pc = s.pc ∨ t.engine = .done ∧ t.pc = s.pc ∨
        t.engine = .run ∧ t.pc = s.pc + BitVec.ofNat 32 i.size)
end

