-- ==== Sys2Proof/Laws/Decode.lean ====
section
/-! SUPPORT. What the decoder and the encoder do, field by field (30_encoding.md R100 to R112). -/

namespace Sys2Proof

/-! ### The opcode map -/

theorem ofOpc_eq_some {v : BitVec 4} {o : Opcode} : Opcode.ofOpc v = some o ↔ o.opc = v := by
  have all : ∀ v o, Opcode.ofOpc v = some o ↔ o.opc = v := by
    intro v o
    cases o <;> revert v <;> decide
  exact all v o

theorem ofOpc_opc (o : Opcode) : Opcode.ofOpc o.opc = some o := ofOpc_eq_some.mpr rfl

/-- OPC 0x9 to 0xF names no row (R109). -/
theorem ofOpc_eq_none {v : BitVec 4} : Opcode.ofOpc v = none ↔ 9 ≤ v.toNat := by
  revert v
  decide

/-- A word has a row's pattern exactly when it has its OPC and no must-be-zero bit set (R107, R108). -/
theorem match_iff (o : Opcode) (h : Word) :
    h &&& o.mask = o.pattern ↔ headerOpc h = o.opc ∧ h &&& o.mustBeZero = 0 := by
  have split : h &&& o.mask = (h &&& 0xF0000000) ||| (h &&& o.mustBeZero) := by
    have : o.mask = 0xF0000000 ||| o.mustBeZero := by cases o <;> decide
    rw [this, BitVec.and_or_distrib_left]
  have high : o.pattern = o.opc ++ 0#28 := by cases o <;> decide
  have hi : h &&& 0xF0000000 = headerOpc h ++ 0#28 := by
    apply BitVec.eq_of_getLsbD_eq
    intro i hi
    have e : ∀ i < 32, (0xF0000000 : Word).getLsbD i = decide (28 ≤ i) := by decide
    replace e := e i hi
    simp only [BitVec.getLsbD_and, e, headerOpc, BitVec.getLsbD_append, BitVec.getLsbD_extractLsb']
    by_cases h28 : i < 28
    · rw [if_pos h28, decide_eq_false (Nat.not_le.mpr h28), Bool.and_false, BitVec.getLsbD_zero]
    · rw [if_neg h28, decide_eq_true (Nat.not_lt.mp h28), decide_eq_true (show i - 28 < 4 by omega),
        show 28 + (i - 28) = i by omega, Bool.and_true, Bool.true_and]
  constructor
  · intro e
    have e2 : h &&& o.mustBeZero = 0 := by
      have := congrArg (· &&& o.mustBeZero) e
      simp only [BitVec.and_assoc] at this
      have m : o.mask &&& o.mustBeZero = o.mustBeZero := by cases o <;> decide
      have p : o.pattern &&& o.mustBeZero = 0 := by cases o <;> decide
      rwa [m, p] at this
    refine ⟨?_, e2⟩
    rw [split, e2, hi, high, show (headerOpc h ++ 0#28 : Word) ||| 0 = headerOpc h ++ 0#28 from BitVec.or_zero] at e
    exact (BitVec.append_left_inj _).mp e
  · rintro ⟨e1, e2⟩
    rw [split, e2, hi, high, e1]
    exact BitVec.or_zero

/-! ### The header word -/

@[simp] theorem headerOpc_headerWord (o : BitVec 4) (c : Byte) (n : BitVec 20) : headerOpc (headerWord o c n) = o := by
  apply BitVec.eq_of_getLsbD_eq
  intro i hi
  simp only [headerOpc, headerWord, BitVec.getLsbD_append, BitVec.getLsbD_extractLsb', hi, decide_true, Bool.true_and]
  rw [if_neg (by omega), if_neg (by omega), show 28 + i - 20 - 8 = i by omega]

@[simp] theorem headerCode_headerWord (o : BitVec 4) (c : Byte) (n : BitVec 20) :
    headerCode (headerWord o c n) = c := by
  apply BitVec.eq_of_getLsbD_eq
  intro i hi
  simp only [headerCode, headerWord, BitVec.getLsbD_append, BitVec.getLsbD_extractLsb', hi, decide_true, Bool.true_and]
  rw [if_neg (by omega), if_pos (by omega), show 20 + i - 20 = i by omega]

@[simp] theorem headerCount_headerWord (o : BitVec 4) (c : Byte) (n : BitVec 20) :
    headerCount (headerWord o c n) = n := by
  apply BitVec.eq_of_getLsbD_eq
  intro i hi
  simp only [headerCount, headerWord, BitVec.getLsbD_append, BitVec.getLsbD_extractLsb', hi, decide_true,
    Bool.true_and]
  rw [if_pos (by omega), Nat.zero_add]

/-- A header word sets no must-be-zero bit where CODE and COUNT set none. -/
theorem headerWord_mustBeZero (i : Instr) :
    headerWord i.opcode.opc i.codeField i.countField &&& i.opcode.mustBeZero = 0 := by
  have zero_of : ∀ (h m : Word), (∀ k < 32, h.getLsbD k = true → m.getLsbD k = false) → h &&& m = 0 := by
    intro h m hk
    apply BitVec.eq_of_getLsbD_eq
    intro k k32
    cases hh : h.getLsbD k
    · simp [hh]
    · simp [hh, hk k k32 hh]
  cases i with
  | endOp => decide
  | reset a b => exact (by decide : headerWord 1 0 0 &&& Opcode.reset.mustBeZero = 0)
  | cmd c =>
    have hm : ∀ k < 32, Opcode.cmd.mustBeZero.getLsbD k = decide (k < 20) := by decide
    apply zero_of
    intro k hk h
    simp only [Instr.opcode, Instr.codeField, Instr.countField, headerWord, BitVec.getLsbD_append] at h ⊢
    rw [hm k hk]
    by_cases h20 : k < 20
    · rw [if_pos h20] at h; simp at h
    · simpa using h20
  | data p =>
    have hm : ∀ k < 32, Opcode.data.mustBeZero.getLsbD k = decide (20 ≤ k ∧ k < 28) := by decide
    apply zero_of
    intro k hk h
    simp only [Instr.opcode, Instr.codeField, Instr.countField, headerWord, BitVec.getLsbD_append] at h ⊢
    rw [hm k hk]
    by_cases h28 : 20 ≤ k ∧ k < 28
    · rw [if_neg (by omega), if_pos (by omega)] at h; simp at h
    · simpa using h28
  | cmdData c p => simp [Instr.opcode, Opcode.mustBeZero, Opcode.mask]
  | fill v n => simp [Instr.opcode, Opcode.mustBeZero, Opcode.mask]
  | frame c p => simp [Instr.opcode, Opcode.mustBeZero, Opcode.mask]
  | wait idle => revert idle; decide
  | setcfg a b c l p g =>
    have all : ∀ a b c : Bit, headerWord 8 0 (0#17 ++ c ++ b ++ a) &&& Opcode.setcfg.mustBeZero = 0 := by decide
    exact all a b c

/-! ### Payload -/

@[simp] theorem payloadBytes_length (word : Nat → Word) (n k : Nat) : (payloadBytes word n k).length = n := by
  induction n generalizing k with
  | zero => rfl
  | succ n ih => simp [payloadBytes, ih]

theorem payloadBytes_getElem (word : Nat → Word) (n k j : Nat) (h : j < (payloadBytes word n k).length) :
    (payloadBytes word n k)[j] = wordByte (word (1 + (k + j) / 4)) ((k + j) % 4) := by
  induction n generalizing k j with
  | zero => simp [payloadBytes] at h
  | succ n ih =>
    cases j with
    | zero => simp [payloadBytes]
    | succ j =>
      simp only [payloadBytes, List.getElem_cons_succ]
      rw [ih (k + 1) j (by simpa [payloadBytes] using h), show k + 1 + j = k + (j + 1) by omega]

theorem payloadBytes_congr {word word' : Nat → Word} {n k : Nat}
    (h : ∀ j < n, wordByte (word (1 + (k + j) / 4)) ((k + j) % 4) = wordByte (word' (1 + (k + j) / 4)) ((k + j) % 4)) :
    payloadBytes word n k = payloadBytes word' n k := by
  apply List.ext_getElem (by simp)
  intro j h1 h2
  rw [payloadBytes_getElem, payloadBytes_getElem]
  exact h j (by simpa using h1)

theorem packBytes_length (l : List Byte) : (packBytes l).length = ceil4 l.length := by
  fun_induction packBytes l with
  | case1 => rfl
  | case2 => simp [ceil4]
  | case3 => simp [ceil4]
  | case4 => simp [ceil4]
  | case5 a b c d rest ih => simp only [List.length_cons, ih, ceil4]; omega

theorem wordByte_join (a b c d : Byte) :
    wordByte (d ++ c ++ b ++ a) 0 = a ∧ wordByte (d ++ c ++ b ++ a) 1 = b ∧
    wordByte (d ++ c ++ b ++ a) 2 = c ∧ wordByte (d ++ c ++ b ++ a) 3 = d := by
  refine ⟨?_, ?_, ?_, ?_⟩ <;>
  · apply BitVec.eq_of_getLsbD_eq
    intro i hi
    simp only [wordByte, BitVec.getLsbD_append, BitVec.getLsbD_extractLsb', hi, decide_true, Bool.true_and]
    first
      | rw [if_pos (by omega)]; congr 1; omega
      | rw [if_neg (by omega), if_pos (by omega)]; congr 1; omega
      | rw [if_neg (by omega), if_neg (by omega), if_pos (by omega)]; congr 1; omega
      | rw [if_neg (by omega), if_neg (by omega), if_neg (by omega)]; congr 1; omega

/-- Byte `k` of a packed list, read as R104 reads it, is the list's byte `k`. -/
theorem wordByte_packBytes (l : List Byte) (k : Nat) (h : k < l.length) :
    wordByte ((packBytes l).getD (k / 4) 0) (k % 4) = l[k] := by
  fun_induction packBytes l generalizing k with
  | case1 => simp at h
  | case2 a =>
    obtain rfl : k = 0 := by simpa using h
    exact (wordByte_join a 0 0 0).1
  | case3 a b =>
    obtain rfl | rfl : k = 0 ∨ k = 1 := by simp at h; omega
    · exact (wordByte_join a b 0 0).1
    · exact (wordByte_join a b 0 0).2.1
  | case4 a b c =>
    obtain rfl | rfl | rfl : k = 0 ∨ k = 1 ∨ k = 2 := by simp at h; omega
    · exact (wordByte_join a b c 0).1
    · exact (wordByte_join a b c 0).2.1
    · exact (wordByte_join a b c 0).2.2.1
  | case5 a b c d rest ih =>
    obtain rfl | rfl | rfl | rfl | hk : k = 0 ∨ k = 1 ∨ k = 2 ∨ k = 3 ∨ 4 ≤ k := by omega
    · exact (wordByte_join a b c d).1
    · exact (wordByte_join a b c d).2.1
    · exact (wordByte_join a b c d).2.2.1
    · exact (wordByte_join a b c d).2.2.2
    · obtain ⟨j, rfl⟩ : ∃ j, k = j + 4 := ⟨k - 4, by omega⟩
      have := ih j (by simp at h; omega)
      rw [show (j + 4) / 4 = j / 4 + 1 by omega, show (j + 4) % 4 = j % 4 by omega]
      simpa using this

/-! ### Decode -/

/-- Decode gives an op exactly when every check of R111 passes. -/
theorem decode_eq_ok {avail : Nat} {word : Nat → Word} {i : Instr} :
    decode avail word = .ok i ↔
      ∃ o : Opcode, avail ≠ 0 ∧ headerOpc (word 0) = o.opc ∧ word 0 &&& o.mustBeZero = 0 ∧
        o.size (headerCount (word 0)) ≤ avail ∧ i = o.operands word := by
  unfold decode
  by_cases h0 : avail = 0
  · simp [h0]
  · rw [if_neg h0]
    cases ho : Opcode.ofOpc (headerOpc (word 0)) with
    | none =>
      simp only [reduceCtorEq, false_iff, not_exists, not_and]
      intro o _ e
      rw [← e.symm, ofOpc_opc] at ho
      cases ho
    | some o =>
      have e := ofOpc_eq_some.mp ho
      constructor
      · intro h
        simp only at h
        split at h
        · cases h
        · split at h
          · cases h
          · cases h
            exact ⟨o, h0, e.symm, by simp_all, by omega, rfl⟩
      · rintro ⟨o', _, e', m, sz, rfl⟩
        have : o' = o := by
          rw [e', ofOpc_opc] at ho
          exact Option.some.inj ho
        subst this
        simp only
        rw [if_neg (by simp [m]), if_neg (by omega)]

theorem decode_headerPastEnd (word : Nat → Word) : decode 0 word = .error .headerPastEnd := rfl

theorem decode_reserved {avail : Nat} {word : Nat → Word} (h : avail ≠ 0)
    (ho : Opcode.ofOpc (headerOpc (word 0)) = none) : decode avail word = .error .reservedOpcode := by
  unfold decode
  rw [if_neg h, ho]

theorem decode_mustBeZero {avail : Nat} {word : Nat → Word} {o : Opcode} (h : avail ≠ 0)
    (ho : headerOpc (word 0) = o.opc) (hm : word 0 &&& o.mustBeZero ≠ 0) :
    decode avail word = .error .mustBeZero := by
  unfold decode
  rw [if_neg h, ho, ofOpc_opc]
  exact if_pos hm

theorem decode_wordsPastEnd {avail : Nat} {word : Nat → Word} {o : Opcode} (h : avail ≠ 0)
    (ho : headerOpc (word 0) = o.opc) (hm : word 0 &&& o.mustBeZero = 0)
    (hs : avail < o.size (headerCount (word 0))) : decode avail word = .error .wordsPastEnd := by
  unfold decode
  rw [if_neg h, ho, ofOpc_opc]
  exact (if_neg (fun k => k hm)).trans (if_pos hs)

@[simp] theorem operands_opcode (o : Opcode) (word : Nat → Word) : (o.operands word).opcode = o := by
  cases o <;> rfl

/-- A decoded payload has as many bytes as COUNT says, so the op's size is that of its header (R106). -/
theorem operands_size (o : Opcode) (word : Nat → Word) :
    (o.operands word).size = o.size (headerCount (word 0)) := by
  cases o <;> simp [Opcode.operands, Instr.size, Instr.opcode, Instr.countField, Opcode.size, Opcode.extensionWords,
    Opcode.payloadWords]

/-- What decode gives is well formed. -/
theorem operands_wellFormed (o : Opcode) (word : Nat → Word) : (o.operands word).wellFormed = true := by
  have lt := (headerCount (word 0)).isLt
  cases o <;> simp [Opcode.operands, Instr.wellFormed, Instr.payload, Config.countMax] <;> omega

/-- A decoded op is well formed and fits in the words there are. -/
theorem decode_ok_fits {avail : Nat} {word : Nat → Word} {i : Instr} (h : decode avail word = .ok i) :
    i.wellFormed = true ∧ i.size ≤ avail := by
  obtain ⟨o, -, -, -, sz, rfl⟩ := decode_eq_ok.mp h
  exact ⟨operands_wellFormed o word, by rw [operands_size]; exact sz⟩

/-- Decode of the same words is the same. -/
theorem decode_congr {avail : Nat} {word word' : Nat → Word} (h : ∀ k, word k = word' k) :
    decode avail word = decode avail word' := by
  rw [funext h]

/-- COUNT of a payload op with at most COUNT_MAX bytes is its length. -/
theorem payload_count {n : Nat} (h : n ≤ Config.countMax) : (BitVec.ofNat 20 n).toNat = n := by
  simp only [BitVec.toNat_ofNat, Config.countMax] at *
  omega

end Sys2Proof
end

