-- ==== Sys2Proof/Laws/State.lean ====
section
/-! SUPPORT. One lemma per field per update of State, so that no proof unfolds a record update. -/

namespace Sys2Proof.Machine.State

/-! ### `record`: appends to TRACE only -/

@[simp] theorem record_params (s : State) (e : Event) : (s.record e).params = s.params := rfl

@[simp] theorem record_engine (s : State) (e : Event) : (s.record e).engine = s.engine := rfl

@[simp] theorem record_pc (s : State) (e : Event) : (s.record e).pc = s.pc := rfl

@[simp] theorem record_entry (s : State) (e : Event) : (s.record e).entry = s.entry := rfl

@[simp] theorem record_errCode (s : State) (e : Event) : (s.record e).errCode = s.errCode := rfl

@[simp] theorem record_errPc (s : State) (e : Event) : (s.record e).errPc = s.errPc := rfl

@[simp] theorem record_polls (s : State) (e : Event) : (s.record e).polls = s.polls := rfl

@[simp] theorem record_perByte (s : State) (e : Event) : (s.record e).perByte = s.perByte := rfl

@[simp] theorem record_invert (s : State) (e : Event) : (s.record e).invert = s.invert := rfl

@[simp] theorem record_expand (s : State) (e : Event) : (s.record e).expand = s.expand := rfl

@[simp] theorem record_frameLen (s : State) (e : Event) : (s.record e).frameLen = s.frameLen := rfl

@[simp] theorem record_pollInterval (s : State) (e : Event) : (s.record e).pollInterval = s.pollInterval := rfl

@[simp] theorem record_byteGap (s : State) (e : Event) : (s.record e).byteGap = s.byteGap := rfl

@[simp] theorem record_dcOut (s : State) (e : Event) : (s.record e).dcOut = s.dcOut := rfl

@[simp] theorem record_dcValid (s : State) (e : Event) : (s.record e).dcValid = s.dcValid := rfl

@[simp] theorem record_rstOut (s : State) (e : Event) : (s.record e).rstOut = s.rstOut := rfl

@[simp] theorem record_busySync (s : State) (e : Event) : (s.record e).busySync = s.busySync := rfl

@[simp] theorem record_todo (s : State) (e : Event) : (s.record e).todo = s.todo := rfl

@[simp] theorem record_mem (s : State) (e : Event) : (s.record e).mem = s.mem := rfl

@[simp] theorem record_trace (s : State) (e : Event) : (s.record e).trace = s.trace ++ [e] := rfl

@[simp] theorem record_powerOns (s : State) (e : Event) : (s.record e).powerOns = s.powerOns := rfl

@[simp] theorem record_draws (s : State) (e : Event) : (s.record e).draws = s.draws := rfl

@[simp] theorem record_levels (s : State) (e : Event) : (s.record e).levels = s.levels := rfl

@[simp] theorem record_script (s : State) (e : Event) : (s.record e).script = s.script := rfl

@[simp] theorem record_schedule (s : State) (e : Event) : (s.record e).schedule = s.schedule := rfl

@[simp] theorem record_readData (s : State) (e : Event) : (s.record e).readData = s.readData := rfl


/-! ### `takeDraw`: takes one answer of the environment -/

@[simp] theorem takeDraw_params (s : State) : (s.takeDraw).params = s.params := rfl

@[simp] theorem takeDraw_engine (s : State) : (s.takeDraw).engine = s.engine := rfl

@[simp] theorem takeDraw_pc (s : State) : (s.takeDraw).pc = s.pc := rfl

@[simp] theorem takeDraw_entry (s : State) : (s.takeDraw).entry = s.entry := rfl

@[simp] theorem takeDraw_errCode (s : State) : (s.takeDraw).errCode = s.errCode := rfl

@[simp] theorem takeDraw_errPc (s : State) : (s.takeDraw).errPc = s.errPc := rfl

@[simp] theorem takeDraw_polls (s : State) : (s.takeDraw).polls = s.polls := rfl

@[simp] theorem takeDraw_perByte (s : State) : (s.takeDraw).perByte = s.perByte := rfl

@[simp] theorem takeDraw_invert (s : State) : (s.takeDraw).invert = s.invert := rfl

@[simp] theorem takeDraw_expand (s : State) : (s.takeDraw).expand = s.expand := rfl

@[simp] theorem takeDraw_frameLen (s : State) : (s.takeDraw).frameLen = s.frameLen := rfl

@[simp] theorem takeDraw_pollInterval (s : State) : (s.takeDraw).pollInterval = s.pollInterval := rfl

@[simp] theorem takeDraw_byteGap (s : State) : (s.takeDraw).byteGap = s.byteGap := rfl

@[simp] theorem takeDraw_dcOut (s : State) : (s.takeDraw).dcOut = s.dcOut := rfl

@[simp] theorem takeDraw_dcValid (s : State) : (s.takeDraw).dcValid = s.dcValid := rfl

@[simp] theorem takeDraw_rstOut (s : State) : (s.takeDraw).rstOut = s.rstOut := rfl

@[simp] theorem takeDraw_busySync (s : State) : (s.takeDraw).busySync = s.busySync := rfl

@[simp] theorem takeDraw_todo (s : State) : (s.takeDraw).todo = s.todo := rfl

@[simp] theorem takeDraw_mem (s : State) : (s.takeDraw).mem = s.mem := rfl

@[simp] theorem takeDraw_trace (s : State) : (s.takeDraw).trace = s.trace := rfl

@[simp] theorem takeDraw_powerOns (s : State) : (s.takeDraw).powerOns = s.powerOns := rfl

@[simp] theorem takeDraw_draws (s : State) : (s.takeDraw).draws = s.draws + 1 := rfl

@[simp] theorem takeDraw_levels (s : State) : (s.takeDraw).levels = s.levels := rfl

@[simp] theorem takeDraw_script (s : State) : (s.takeDraw).script = s.script.tail := rfl

@[simp] theorem takeDraw_schedule (s : State) : (s.takeDraw).schedule = s.schedule := rfl

@[simp] theorem takeDraw_readData (s : State) : (s.takeDraw).readData = s.readData := rfl


/-! ### `raise`: the fault registers (R259) -/

@[simp] theorem raise_params (s : State) (code : ErrCode) : (s.raise code).params = s.params := rfl

@[simp] theorem raise_engine (s : State) (code : ErrCode) : (s.raise code).engine = .fault := rfl

@[simp] theorem raise_pc (s : State) (code : ErrCode) : (s.raise code).pc = s.pc := rfl

@[simp] theorem raise_entry (s : State) (code : ErrCode) : (s.raise code).entry = s.entry := rfl

@[simp] theorem raise_errCode (s : State) (code : ErrCode) : (s.raise code).errCode = code := rfl

@[simp] theorem raise_errPc (s : State) (code : ErrCode) : (s.raise code).errPc = s.pc := rfl

@[simp] theorem raise_polls (s : State) (code : ErrCode) : (s.raise code).polls = s.polls := rfl

@[simp] theorem raise_perByte (s : State) (code : ErrCode) : (s.raise code).perByte = s.perByte := rfl

@[simp] theorem raise_invert (s : State) (code : ErrCode) : (s.raise code).invert = s.invert := rfl

@[simp] theorem raise_expand (s : State) (code : ErrCode) : (s.raise code).expand = s.expand := rfl

@[simp] theorem raise_frameLen (s : State) (code : ErrCode) : (s.raise code).frameLen = s.frameLen := rfl

@[simp] theorem raise_pollInterval (s : State) (code : ErrCode) : (s.raise code).pollInterval = s.pollInterval := rfl

@[simp] theorem raise_byteGap (s : State) (code : ErrCode) : (s.raise code).byteGap = s.byteGap := rfl

@[simp] theorem raise_dcOut (s : State) (code : ErrCode) : (s.raise code).dcOut = s.dcOut := rfl

@[simp] theorem raise_dcValid (s : State) (code : ErrCode) : (s.raise code).dcValid = s.dcValid := rfl

@[simp] theorem raise_rstOut (s : State) (code : ErrCode) : (s.raise code).rstOut = s.rstOut := rfl

@[simp] theorem raise_busySync (s : State) (code : ErrCode) : (s.raise code).busySync = s.busySync := rfl

@[simp] theorem raise_todo (s : State) (code : ErrCode) : (s.raise code).todo = [] := rfl

@[simp] theorem raise_mem (s : State) (code : ErrCode) : (s.raise code).mem = s.mem := rfl

@[simp] theorem raise_trace (s : State) (code : ErrCode) : (s.raise code).trace = s.trace := rfl

@[simp] theorem raise_powerOns (s : State) (code : ErrCode) : (s.raise code).powerOns = s.powerOns := rfl

@[simp] theorem raise_draws (s : State) (code : ErrCode) : (s.raise code).draws = s.draws := rfl

@[simp] theorem raise_levels (s : State) (code : ErrCode) : (s.raise code).levels = s.levels := rfl

@[simp] theorem raise_script (s : State) (code : ErrCode) : (s.raise code).script = s.script := rfl

@[simp] theorem raise_schedule (s : State) (code : ErrCode) : (s.raise code).schedule = s.schedule := rfl

@[simp] theorem raise_readData (s : State) (code : ErrCode) : (s.raise code).readData = s.readData := rfl


/-! ### `complete`: stage 3 of an op (R141) -/

@[simp] theorem complete_params (s : State) (n : Nat) : (s.complete n).params = s.params := rfl

@[simp] theorem complete_engine (s : State) (n : Nat) : (s.complete n).engine = .run := rfl

@[simp] theorem complete_pc (s : State) (n : Nat) : (s.complete n).pc = s.pc + BitVec.ofNat 32 n := rfl

@[simp] theorem complete_entry (s : State) (n : Nat) : (s.complete n).entry = s.entry := rfl

@[simp] theorem complete_errCode (s : State) (n : Nat) : (s.complete n).errCode = s.errCode := rfl

@[simp] theorem complete_errPc (s : State) (n : Nat) : (s.complete n).errPc = s.errPc := rfl

@[simp] theorem complete_polls (s : State) (n : Nat) : (s.complete n).polls = s.polls := rfl

@[simp] theorem complete_perByte (s : State) (n : Nat) : (s.complete n).perByte = s.perByte := rfl

@[simp] theorem complete_invert (s : State) (n : Nat) : (s.complete n).invert = s.invert := rfl

@[simp] theorem complete_expand (s : State) (n : Nat) : (s.complete n).expand = s.expand := rfl

@[simp] theorem complete_frameLen (s : State) (n : Nat) : (s.complete n).frameLen = s.frameLen := rfl

@[simp] theorem complete_pollInterval (s : State) (n : Nat) : (s.complete n).pollInterval = s.pollInterval := rfl

@[simp] theorem complete_byteGap (s : State) (n : Nat) : (s.complete n).byteGap = s.byteGap := rfl

@[simp] theorem complete_dcOut (s : State) (n : Nat) : (s.complete n).dcOut = s.dcOut := rfl

@[simp] theorem complete_dcValid (s : State) (n : Nat) : (s.complete n).dcValid = s.dcValid := rfl

@[simp] theorem complete_rstOut (s : State) (n : Nat) : (s.complete n).rstOut = s.rstOut := rfl

@[simp] theorem complete_busySync (s : State) (n : Nat) : (s.complete n).busySync = s.busySync := rfl

@[simp] theorem complete_todo (s : State) (n : Nat) : (s.complete n).todo = [] := rfl

@[simp] theorem complete_mem (s : State) (n : Nat) : (s.complete n).mem = s.mem := rfl

@[simp] theorem complete_trace (s : State) (n : Nat) : (s.complete n).trace = s.trace := rfl

@[simp] theorem complete_powerOns (s : State) (n : Nat) : (s.complete n).powerOns = s.powerOns := rfl

@[simp] theorem complete_draws (s : State) (n : Nat) : (s.complete n).draws = s.draws := rfl

@[simp] theorem complete_levels (s : State) (n : Nat) : (s.complete n).levels = s.levels := rfl

@[simp] theorem complete_script (s : State) (n : Nat) : (s.complete n).script = s.script := rfl

@[simp] theorem complete_schedule (s : State) (n : Nat) : (s.complete n).schedule = s.schedule := rfl

@[simp] theorem complete_readData (s : State) (n : Nat) : (s.complete n).readData = s.readData := rfl


/-! ### `writeWord`: stores one word of op memory -/

@[simp] theorem writeWord_params (s : State) (a : Nat) (w : Word) : (s.writeWord a w).params = s.params := rfl

@[simp] theorem writeWord_engine (s : State) (a : Nat) (w : Word) : (s.writeWord a w).engine = s.engine := rfl

@[simp] theorem writeWord_pc (s : State) (a : Nat) (w : Word) : (s.writeWord a w).pc = s.pc := rfl

@[simp] theorem writeWord_entry (s : State) (a : Nat) (w : Word) : (s.writeWord a w).entry = s.entry := rfl

@[simp] theorem writeWord_errCode (s : State) (a : Nat) (w : Word) : (s.writeWord a w).errCode = s.errCode := rfl

@[simp] theorem writeWord_errPc (s : State) (a : Nat) (w : Word) : (s.writeWord a w).errPc = s.errPc := rfl

@[simp] theorem writeWord_polls (s : State) (a : Nat) (w : Word) : (s.writeWord a w).polls = s.polls := rfl

@[simp] theorem writeWord_perByte (s : State) (a : Nat) (w : Word) : (s.writeWord a w).perByte = s.perByte := rfl

@[simp] theorem writeWord_invert (s : State) (a : Nat) (w : Word) : (s.writeWord a w).invert = s.invert := rfl

@[simp] theorem writeWord_expand (s : State) (a : Nat) (w : Word) : (s.writeWord a w).expand = s.expand := rfl

@[simp] theorem writeWord_frameLen (s : State) (a : Nat) (w : Word) : (s.writeWord a w).frameLen = s.frameLen := rfl

@[simp] theorem writeWord_pollInterval (s : State) (a : Nat) (w : Word) : (s.writeWord a w).pollInterval = s.pollInterval := rfl

@[simp] theorem writeWord_byteGap (s : State) (a : Nat) (w : Word) : (s.writeWord a w).byteGap = s.byteGap := rfl

@[simp] theorem writeWord_dcOut (s : State) (a : Nat) (w : Word) : (s.writeWord a w).dcOut = s.dcOut := rfl

@[simp] theorem writeWord_dcValid (s : State) (a : Nat) (w : Word) : (s.writeWord a w).dcValid = s.dcValid := rfl

@[simp] theorem writeWord_rstOut (s : State) (a : Nat) (w : Word) : (s.writeWord a w).rstOut = s.rstOut := rfl

@[simp] theorem writeWord_busySync (s : State) (a : Nat) (w : Word) : (s.writeWord a w).busySync = s.busySync := rfl

@[simp] theorem writeWord_todo (s : State) (a : Nat) (w : Word) : (s.writeWord a w).todo = s.todo := rfl

@[simp] theorem writeWord_mem (s : State) (a : Nat) (w : Word) : (s.writeWord a w).mem = s.mem.writeBytes a (wordBytes w) := rfl

@[simp] theorem writeWord_trace (s : State) (a : Nat) (w : Word) : (s.writeWord a w).trace = s.trace := rfl

@[simp] theorem writeWord_powerOns (s : State) (a : Nat) (w : Word) : (s.writeWord a w).powerOns = s.powerOns := rfl

@[simp] theorem writeWord_draws (s : State) (a : Nat) (w : Word) : (s.writeWord a w).draws = s.draws := rfl

@[simp] theorem writeWord_levels (s : State) (a : Nat) (w : Word) : (s.writeWord a w).levels = s.levels := rfl

@[simp] theorem writeWord_script (s : State) (a : Nat) (w : Word) : (s.writeWord a w).script = s.script := rfl

@[simp] theorem writeWord_schedule (s : State) (a : Nat) (w : Word) : (s.writeWord a w).schedule = s.schedule := rfl

@[simp] theorem writeWord_readData (s : State) (a : Nat) (w : Word) : (s.writeWord a w).readData = s.readData := rfl


/-! ### `beginWait`: a WAIT at decode (R203) -/

@[simp] theorem beginWait_params (s : State) : (s.beginWait).params = s.params := rfl

@[simp] theorem beginWait_engine (s : State) : (s.beginWait).engine = .wait := rfl

@[simp] theorem beginWait_pc (s : State) : (s.beginWait).pc = s.pc := rfl

@[simp] theorem beginWait_entry (s : State) : (s.beginWait).entry = s.entry := rfl

@[simp] theorem beginWait_errCode (s : State) : (s.beginWait).errCode = s.errCode := rfl

@[simp] theorem beginWait_errPc (s : State) : (s.beginWait).errPc = s.errPc := rfl

@[simp] theorem beginWait_polls (s : State) : (s.beginWait).polls = 0 := rfl

@[simp] theorem beginWait_perByte (s : State) : (s.beginWait).perByte = s.perByte := rfl

@[simp] theorem beginWait_invert (s : State) : (s.beginWait).invert = s.invert := rfl

@[simp] theorem beginWait_expand (s : State) : (s.beginWait).expand = s.expand := rfl

@[simp] theorem beginWait_frameLen (s : State) : (s.beginWait).frameLen = s.frameLen := rfl

@[simp] theorem beginWait_pollInterval (s : State) : (s.beginWait).pollInterval = s.pollInterval := rfl

@[simp] theorem beginWait_byteGap (s : State) : (s.beginWait).byteGap = s.byteGap := rfl

@[simp] theorem beginWait_dcOut (s : State) : (s.beginWait).dcOut = s.dcOut := rfl

@[simp] theorem beginWait_dcValid (s : State) : (s.beginWait).dcValid = s.dcValid := rfl

@[simp] theorem beginWait_rstOut (s : State) : (s.beginWait).rstOut = s.rstOut := rfl

@[simp] theorem beginWait_busySync (s : State) : (s.beginWait).busySync = s.busySync := rfl

@[simp] theorem beginWait_todo (s : State) : (s.beginWait).todo = [.poll] := rfl

@[simp] theorem beginWait_mem (s : State) : (s.beginWait).mem = s.mem := rfl

@[simp] theorem beginWait_trace (s : State) : (s.beginWait).trace = s.trace := rfl

@[simp] theorem beginWait_powerOns (s : State) : (s.beginWait).powerOns = s.powerOns := rfl

@[simp] theorem beginWait_draws (s : State) : (s.beginWait).draws = s.draws := rfl

@[simp] theorem beginWait_levels (s : State) : (s.beginWait).levels = s.levels := rfl

@[simp] theorem beginWait_script (s : State) : (s.beginWait).script = s.script := rfl

@[simp] theorem beginWait_schedule (s : State) : (s.beginWait).schedule = s.schedule := rfl

@[simp] theorem beginWait_readData (s : State) : (s.beginWait).readData = s.readData := rfl


/-! ### `resetRegisters`: every register at its reset value (R56) -/

@[simp] theorem resetRegisters_params (s : State) : (s.resetRegisters).params = s.params := rfl

@[simp] theorem resetRegisters_engine (s : State) : (s.resetRegisters).engine = .idle := rfl

@[simp] theorem resetRegisters_pc (s : State) : (s.resetRegisters).pc = 0 := rfl

@[simp] theorem resetRegisters_entry (s : State) : (s.resetRegisters).entry = 0 := rfl

@[simp] theorem resetRegisters_errCode (s : State) : (s.resetRegisters).errCode = .none := rfl

@[simp] theorem resetRegisters_errPc (s : State) : (s.resetRegisters).errPc = 0 := rfl

@[simp] theorem resetRegisters_polls (s : State) : (s.resetRegisters).polls = 0 := rfl

@[simp] theorem resetRegisters_perByte (s : State) : (s.resetRegisters).perByte = 0 := rfl

@[simp] theorem resetRegisters_invert (s : State) : (s.resetRegisters).invert = 0 := rfl

@[simp] theorem resetRegisters_expand (s : State) : (s.resetRegisters).expand = 0 := rfl

@[simp] theorem resetRegisters_frameLen (s : State) : (s.resetRegisters).frameLen = 0 := rfl

@[simp] theorem resetRegisters_pollInterval (s : State) : (s.resetRegisters).pollInterval = 0 := rfl

@[simp] theorem resetRegisters_byteGap (s : State) : (s.resetRegisters).byteGap = 0 := rfl

@[simp] theorem resetRegisters_dcOut (s : State) : (s.resetRegisters).dcOut = Config.freeLevel s.levels := rfl

@[simp] theorem resetRegisters_dcValid (s : State) : (s.resetRegisters).dcValid = 0 := rfl

@[simp] theorem resetRegisters_rstOut (s : State) : (s.resetRegisters).rstOut = 1 := rfl

@[simp] theorem resetRegisters_busySync (s : State) : (s.resetRegisters).busySync = Config.freeLevel (s.levels + 1) := rfl

@[simp] theorem resetRegisters_todo (s : State) : (s.resetRegisters).todo = [] := rfl

@[simp] theorem resetRegisters_mem (s : State) : (s.resetRegisters).mem = s.mem := rfl

@[simp] theorem resetRegisters_trace (s : State) : (s.resetRegisters).trace = s.trace := rfl

@[simp] theorem resetRegisters_powerOns (s : State) : (s.resetRegisters).powerOns = s.powerOns := rfl

@[simp] theorem resetRegisters_draws (s : State) : (s.resetRegisters).draws = s.draws := rfl

@[simp] theorem resetRegisters_levels (s : State) : (s.resetRegisters).levels = s.levels + 2 := rfl

@[simp] theorem resetRegisters_script (s : State) : (s.resetRegisters).script = s.script := rfl

@[simp] theorem resetRegisters_schedule (s : State) : (s.resetRegisters).schedule = s.schedule := rfl

@[simp] theorem resetRegisters_readData (s : State) : (s.resetRegisters).readData = s.readData := rfl


/-! ### `drive`: drives the lines only (R43, R44) -/

@[simp] theorem drive_params (s : State) (a : Action) : (s.drive a).params = s.params := by cases a <;> rfl

@[simp] theorem drive_engine (s : State) (a : Action) : (s.drive a).engine = s.engine := by cases a <;> rfl

@[simp] theorem drive_pc (s : State) (a : Action) : (s.drive a).pc = s.pc := by cases a <;> rfl

@[simp] theorem drive_entry (s : State) (a : Action) : (s.drive a).entry = s.entry := by cases a <;> rfl

@[simp] theorem drive_errCode (s : State) (a : Action) : (s.drive a).errCode = s.errCode := by cases a <;> rfl

@[simp] theorem drive_errPc (s : State) (a : Action) : (s.drive a).errPc = s.errPc := by cases a <;> rfl

@[simp] theorem drive_polls (s : State) (a : Action) : (s.drive a).polls = s.polls := by cases a <;> rfl

@[simp] theorem drive_perByte (s : State) (a : Action) : (s.drive a).perByte = s.perByte := by cases a <;> rfl

@[simp] theorem drive_invert (s : State) (a : Action) : (s.drive a).invert = s.invert := by cases a <;> rfl

@[simp] theorem drive_expand (s : State) (a : Action) : (s.drive a).expand = s.expand := by cases a <;> rfl

@[simp] theorem drive_frameLen (s : State) (a : Action) : (s.drive a).frameLen = s.frameLen := by cases a <;> rfl

@[simp] theorem drive_pollInterval (s : State) (a : Action) : (s.drive a).pollInterval = s.pollInterval := by cases a <;> rfl

@[simp] theorem drive_byteGap (s : State) (a : Action) : (s.drive a).byteGap = s.byteGap := by cases a <;> rfl

@[simp] theorem drive_busySync (s : State) (a : Action) : (s.drive a).busySync = s.busySync := by cases a <;> rfl

@[simp] theorem drive_todo (s : State) (a : Action) : (s.drive a).todo = s.todo := by cases a <;> rfl

@[simp] theorem drive_mem (s : State) (a : Action) : (s.drive a).mem = s.mem := by cases a <;> rfl

@[simp] theorem drive_trace (s : State) (a : Action) : (s.drive a).trace = s.trace := by cases a <;> rfl

@[simp] theorem drive_powerOns (s : State) (a : Action) : (s.drive a).powerOns = s.powerOns := by cases a <;> rfl

@[simp] theorem drive_draws (s : State) (a : Action) : (s.drive a).draws = s.draws := by cases a <;> rfl

@[simp] theorem drive_levels (s : State) (a : Action) : (s.drive a).levels = s.levels := by cases a <;> rfl

@[simp] theorem drive_script (s : State) (a : Action) : (s.drive a).script = s.script := by cases a <;> rfl

@[simp] theorem drive_schedule (s : State) (a : Action) : (s.drive a).schedule = s.schedule := by cases a <;> rfl

@[simp] theorem drive_readData (s : State) (a : Action) : (s.drive a).readData = s.readData := by cases a <;> rfl


/-! ### `ask`: asks the environment -/

@[simp] theorem ask_params (s : State) (a : Action) : (s.ask a).params = s.params := by cases a <;> rfl

@[simp] theorem ask_engine (s : State) (a : Action) : (s.ask a).engine = s.engine := by cases a <;> rfl

@[simp] theorem ask_pc (s : State) (a : Action) : (s.ask a).pc = s.pc := by cases a <;> rfl

@[simp] theorem ask_entry (s : State) (a : Action) : (s.ask a).entry = s.entry := by cases a <;> rfl

@[simp] theorem ask_errCode (s : State) (a : Action) : (s.ask a).errCode = s.errCode := by cases a <;> rfl

@[simp] theorem ask_errPc (s : State) (a : Action) : (s.ask a).errPc = s.errPc := by cases a <;> rfl

@[simp] theorem ask_perByte (s : State) (a : Action) : (s.ask a).perByte = s.perByte := by cases a <;> rfl

@[simp] theorem ask_invert (s : State) (a : Action) : (s.ask a).invert = s.invert := by cases a <;> rfl

@[simp] theorem ask_expand (s : State) (a : Action) : (s.ask a).expand = s.expand := by cases a <;> rfl

@[simp] theorem ask_frameLen (s : State) (a : Action) : (s.ask a).frameLen = s.frameLen := by cases a <;> rfl

@[simp] theorem ask_pollInterval (s : State) (a : Action) : (s.ask a).pollInterval = s.pollInterval := by cases a <;> rfl

@[simp] theorem ask_byteGap (s : State) (a : Action) : (s.ask a).byteGap = s.byteGap := by cases a <;> rfl

@[simp] theorem ask_dcOut (s : State) (a : Action) : (s.ask a).dcOut = s.dcOut := by cases a <;> rfl

@[simp] theorem ask_dcValid (s : State) (a : Action) : (s.ask a).dcValid = s.dcValid := by cases a <;> rfl

@[simp] theorem ask_rstOut (s : State) (a : Action) : (s.ask a).rstOut = s.rstOut := by cases a <;> rfl

@[simp] theorem ask_todo (s : State) (a : Action) : (s.ask a).todo = s.todo := by cases a <;> rfl

@[simp] theorem ask_mem (s : State) (a : Action) : (s.ask a).mem = s.mem := by cases a <;> rfl

@[simp] theorem ask_trace (s : State) (a : Action) : (s.ask a).trace = s.trace := by cases a <;> rfl

@[simp] theorem ask_powerOns (s : State) (a : Action) : (s.ask a).powerOns = s.powerOns := by cases a <;> rfl

@[simp] theorem ask_levels (s : State) (a : Action) : (s.ask a).levels = s.levels := by cases a <;> rfl

@[simp] theorem ask_schedule (s : State) (a : Action) : (s.ask a).schedule = s.schedule := by cases a <;> rfl

@[simp] theorem ask_readData (s : State) (a : Action) : (s.ask a).readData = s.readData := by cases a <;> rfl


@[simp] theorem ask_setDC (s : State) (k : Select) : s.ask (.setDC k) = s.takeDraw := rfl

@[simp] theorem ask_setRST (s : State) (l : Bit) : s.ask (.setRST l) = s.takeDraw := rfl

@[simp] theorem ask_xfer (s : State) (b : List Byte) : s.ask (.xfer b) = s.takeDraw := rfl

@[simp] theorem ask_delay (s : State) (d : Word) : s.ask (.delay d) = s := rfl

@[simp] theorem ask_yield (s : State) (d : Word) : s.ask (.yield d) = s := rfl


/-! ### `perform`: Act(a): everything but TRACE, the lines, POLLS, BUSY_SYNC and the draws stays -/

@[simp] theorem perform_params (s : State) (a : Action) : (s.perform a).params = s.params := by
  simp only [State.perform]; split <;> simp

@[simp] theorem perform_engine (s : State) (a : Action) : (s.perform a).engine = s.engine := by
  simp only [State.perform]; split <;> simp

@[simp] theorem perform_pc (s : State) (a : Action) : (s.perform a).pc = s.pc := by
  simp only [State.perform]; split <;> simp

@[simp] theorem perform_entry (s : State) (a : Action) : (s.perform a).entry = s.entry := by
  simp only [State.perform]; split <;> simp

@[simp] theorem perform_errCode (s : State) (a : Action) : (s.perform a).errCode = s.errCode := by
  simp only [State.perform]; split <;> simp

@[simp] theorem perform_errPc (s : State) (a : Action) : (s.perform a).errPc = s.errPc := by
  simp only [State.perform]; split <;> simp

@[simp] theorem perform_perByte (s : State) (a : Action) : (s.perform a).perByte = s.perByte := by
  simp only [State.perform]; split <;> simp

@[simp] theorem perform_invert (s : State) (a : Action) : (s.perform a).invert = s.invert := by
  simp only [State.perform]; split <;> simp

@[simp] theorem perform_expand (s : State) (a : Action) : (s.perform a).expand = s.expand := by
  simp only [State.perform]; split <;> simp

@[simp] theorem perform_frameLen (s : State) (a : Action) : (s.perform a).frameLen = s.frameLen := by
  simp only [State.perform]; split <;> simp

@[simp] theorem perform_pollInterval (s : State) (a : Action) : (s.perform a).pollInterval = s.pollInterval := by
  simp only [State.perform]; split <;> simp

@[simp] theorem perform_byteGap (s : State) (a : Action) : (s.perform a).byteGap = s.byteGap := by
  simp only [State.perform]; split <;> simp

@[simp] theorem perform_todo (s : State) (a : Action) : (s.perform a).todo = s.todo := by
  simp only [State.perform]; split <;> simp

@[simp] theorem perform_mem (s : State) (a : Action) : (s.perform a).mem = s.mem := by
  simp only [State.perform]; split <;> simp

@[simp] theorem perform_trace (s : State) (a : Action) : (s.perform a).trace = s.trace ++ [.act a (s.answer a)] := by
  simp only [State.perform]; split <;> simp

@[simp] theorem perform_powerOns (s : State) (a : Action) : (s.perform a).powerOns = s.powerOns := by
  simp only [State.perform]; split <;> simp

@[simp] theorem perform_levels (s : State) (a : Action) : (s.perform a).levels = s.levels := by
  simp only [State.perform]; split <;> simp

@[simp] theorem perform_schedule (s : State) (a : Action) : (s.perform a).schedule = s.schedule := by
  simp only [State.perform]; split <;> simp

@[simp] theorem perform_readData (s : State) (a : Action) : (s.perform a).readData = s.readData := by
  simp only [State.perform]; split <;> simp


/-! ### `proceed`: the op goes on, or completes where no action is left -/

@[simp] theorem proceed_params (s : State) (n : Nat) (rest : List Action) : (s.proceed n rest).params = s.params := by cases rest <;> rfl

@[simp] theorem proceed_entry (s : State) (n : Nat) (rest : List Action) : (s.proceed n rest).entry = s.entry := by cases rest <;> rfl

@[simp] theorem proceed_errCode (s : State) (n : Nat) (rest : List Action) : (s.proceed n rest).errCode = s.errCode := by cases rest <;> rfl

@[simp] theorem proceed_errPc (s : State) (n : Nat) (rest : List Action) : (s.proceed n rest).errPc = s.errPc := by cases rest <;> rfl

@[simp] theorem proceed_polls (s : State) (n : Nat) (rest : List Action) : (s.proceed n rest).polls = s.polls := by cases rest <;> rfl

@[simp] theorem proceed_perByte (s : State) (n : Nat) (rest : List Action) : (s.proceed n rest).perByte = s.perByte := by cases rest <;> rfl

@[simp] theorem proceed_invert (s : State) (n : Nat) (rest : List Action) : (s.proceed n rest).invert = s.invert := by cases rest <;> rfl

@[simp] theorem proceed_expand (s : State) (n : Nat) (rest : List Action) : (s.proceed n rest).expand = s.expand := by cases rest <;> rfl

@[simp] theorem proceed_frameLen (s : State) (n : Nat) (rest : List Action) : (s.proceed n rest).frameLen = s.frameLen := by cases rest <;> rfl

@[simp] theorem proceed_pollInterval (s : State) (n : Nat) (rest : List Action) : (s.proceed n rest).pollInterval = s.pollInterval := by cases rest <;> rfl

@[simp] theorem proceed_byteGap (s : State) (n : Nat) (rest : List Action) : (s.proceed n rest).byteGap = s.byteGap := by cases rest <;> rfl

@[simp] theorem proceed_dcOut (s : State) (n : Nat) (rest : List Action) : (s.proceed n rest).dcOut = s.dcOut := by cases rest <;> rfl

@[simp] theorem proceed_dcValid (s : State) (n : Nat) (rest : List Action) : (s.proceed n rest).dcValid = s.dcValid := by cases rest <;> rfl

@[simp] theorem proceed_rstOut (s : State) (n : Nat) (rest : List Action) : (s.proceed n rest).rstOut = s.rstOut := by cases rest <;> rfl

@[simp] theorem proceed_busySync (s : State) (n : Nat) (rest : List Action) : (s.proceed n rest).busySync = s.busySync := by cases rest <;> rfl

@[simp] theorem proceed_todo (s : State) (n : Nat) (rest : List Action) : (s.proceed n rest).todo = rest := by cases rest <;> rfl

@[simp] theorem proceed_mem (s : State) (n : Nat) (rest : List Action) : (s.proceed n rest).mem = s.mem := by cases rest <;> rfl

@[simp] theorem proceed_trace (s : State) (n : Nat) (rest : List Action) : (s.proceed n rest).trace = s.trace := by cases rest <;> rfl

@[simp] theorem proceed_powerOns (s : State) (n : Nat) (rest : List Action) : (s.proceed n rest).powerOns = s.powerOns := by cases rest <;> rfl

@[simp] theorem proceed_draws (s : State) (n : Nat) (rest : List Action) : (s.proceed n rest).draws = s.draws := by cases rest <;> rfl

@[simp] theorem proceed_levels (s : State) (n : Nat) (rest : List Action) : (s.proceed n rest).levels = s.levels := by cases rest <;> rfl

@[simp] theorem proceed_script (s : State) (n : Nat) (rest : List Action) : (s.proceed n rest).script = s.script := by cases rest <;> rfl

@[simp] theorem proceed_schedule (s : State) (n : Nat) (rest : List Action) : (s.proceed n rest).schedule = s.schedule := by cases rest <;> rfl

@[simp] theorem proceed_readData (s : State) (n : Nat) (rest : List Action) : (s.proceed n rest).readData = s.readData := by cases rest <;> rfl


/-! ### `sampleBusy`: a read of LINES samples BUSY_SYNC -/

@[simp] theorem sampleBusy_params (s : State) (o : Nat) : (s.sampleBusy o).params = s.params := by
  simp only [State.sampleBusy]; split <;> rfl

@[simp] theorem sampleBusy_engine (s : State) (o : Nat) : (s.sampleBusy o).engine = s.engine := by
  simp only [State.sampleBusy]; split <;> rfl

@[simp] theorem sampleBusy_pc (s : State) (o : Nat) : (s.sampleBusy o).pc = s.pc := by
  simp only [State.sampleBusy]; split <;> rfl

@[simp] theorem sampleBusy_entry (s : State) (o : Nat) : (s.sampleBusy o).entry = s.entry := by
  simp only [State.sampleBusy]; split <;> rfl

@[simp] theorem sampleBusy_errCode (s : State) (o : Nat) : (s.sampleBusy o).errCode = s.errCode := by
  simp only [State.sampleBusy]; split <;> rfl

@[simp] theorem sampleBusy_errPc (s : State) (o : Nat) : (s.sampleBusy o).errPc = s.errPc := by
  simp only [State.sampleBusy]; split <;> rfl

@[simp] theorem sampleBusy_polls (s : State) (o : Nat) : (s.sampleBusy o).polls = s.polls := by
  simp only [State.sampleBusy]; split <;> rfl

@[simp] theorem sampleBusy_perByte (s : State) (o : Nat) : (s.sampleBusy o).perByte = s.perByte := by
  simp only [State.sampleBusy]; split <;> rfl

@[simp] theorem sampleBusy_invert (s : State) (o : Nat) : (s.sampleBusy o).invert = s.invert := by
  simp only [State.sampleBusy]; split <;> rfl

@[simp] theorem sampleBusy_expand (s : State) (o : Nat) : (s.sampleBusy o).expand = s.expand := by
  simp only [State.sampleBusy]; split <;> rfl

@[simp] theorem sampleBusy_frameLen (s : State) (o : Nat) : (s.sampleBusy o).frameLen = s.frameLen := by
  simp only [State.sampleBusy]; split <;> rfl

@[simp] theorem sampleBusy_pollInterval (s : State) (o : Nat) : (s.sampleBusy o).pollInterval = s.pollInterval := by
  simp only [State.sampleBusy]; split <;> rfl

@[simp] theorem sampleBusy_byteGap (s : State) (o : Nat) : (s.sampleBusy o).byteGap = s.byteGap := by
  simp only [State.sampleBusy]; split <;> rfl

@[simp] theorem sampleBusy_dcOut (s : State) (o : Nat) : (s.sampleBusy o).dcOut = s.dcOut := by
  simp only [State.sampleBusy]; split <;> rfl

@[simp] theorem sampleBusy_dcValid (s : State) (o : Nat) : (s.sampleBusy o).dcValid = s.dcValid := by
  simp only [State.sampleBusy]; split <;> rfl

@[simp] theorem sampleBusy_rstOut (s : State) (o : Nat) : (s.sampleBusy o).rstOut = s.rstOut := by
  simp only [State.sampleBusy]; split <;> rfl

@[simp] theorem sampleBusy_todo (s : State) (o : Nat) : (s.sampleBusy o).todo = s.todo := by
  simp only [State.sampleBusy]; split <;> rfl

@[simp] theorem sampleBusy_mem (s : State) (o : Nat) : (s.sampleBusy o).mem = s.mem := by
  simp only [State.sampleBusy]; split <;> rfl

@[simp] theorem sampleBusy_trace (s : State) (o : Nat) : (s.sampleBusy o).trace = s.trace := by
  simp only [State.sampleBusy]; split <;> rfl

@[simp] theorem sampleBusy_powerOns (s : State) (o : Nat) : (s.sampleBusy o).powerOns = s.powerOns := by
  simp only [State.sampleBusy]; split <;> rfl

@[simp] theorem sampleBusy_draws (s : State) (o : Nat) : (s.sampleBusy o).draws = s.draws := by
  simp only [State.sampleBusy]; split <;> rfl

@[simp] theorem sampleBusy_script (s : State) (o : Nat) : (s.sampleBusy o).script = s.script := by
  simp only [State.sampleBusy]; split <;> rfl

@[simp] theorem sampleBusy_schedule (s : State) (o : Nat) : (s.sampleBusy o).schedule = s.schedule := by
  simp only [State.sampleBusy]; split <;> rfl

@[simp] theorem sampleBusy_readData (s : State) (o : Nat) : (s.sampleBusy o).readData = s.readData := by
  simp only [State.sampleBusy]; split <;> rfl


/-! ### `hostRead`: a host read -/

@[simp] theorem hostRead_params (s : State) (o : Nat) : (s.hostRead o).params = s.params := by simp [State.hostRead]

@[simp] theorem hostRead_engine (s : State) (o : Nat) : (s.hostRead o).engine = s.engine := by simp [State.hostRead]

@[simp] theorem hostRead_pc (s : State) (o : Nat) : (s.hostRead o).pc = s.pc := by simp [State.hostRead]

@[simp] theorem hostRead_entry (s : State) (o : Nat) : (s.hostRead o).entry = s.entry := by simp [State.hostRead]

@[simp] theorem hostRead_errCode (s : State) (o : Nat) : (s.hostRead o).errCode = s.errCode := by simp [State.hostRead]

@[simp] theorem hostRead_errPc (s : State) (o : Nat) : (s.hostRead o).errPc = s.errPc := by simp [State.hostRead]

@[simp] theorem hostRead_polls (s : State) (o : Nat) : (s.hostRead o).polls = s.polls := by simp [State.hostRead]

@[simp] theorem hostRead_perByte (s : State) (o : Nat) : (s.hostRead o).perByte = s.perByte := by simp [State.hostRead]

@[simp] theorem hostRead_invert (s : State) (o : Nat) : (s.hostRead o).invert = s.invert := by simp [State.hostRead]

@[simp] theorem hostRead_expand (s : State) (o : Nat) : (s.hostRead o).expand = s.expand := by simp [State.hostRead]

@[simp] theorem hostRead_frameLen (s : State) (o : Nat) : (s.hostRead o).frameLen = s.frameLen := by simp [State.hostRead]

@[simp] theorem hostRead_pollInterval (s : State) (o : Nat) : (s.hostRead o).pollInterval = s.pollInterval := by simp [State.hostRead]

@[simp] theorem hostRead_byteGap (s : State) (o : Nat) : (s.hostRead o).byteGap = s.byteGap := by simp [State.hostRead]

@[simp] theorem hostRead_dcOut (s : State) (o : Nat) : (s.hostRead o).dcOut = s.dcOut := by simp [State.hostRead]

@[simp] theorem hostRead_dcValid (s : State) (o : Nat) : (s.hostRead o).dcValid = s.dcValid := by simp [State.hostRead]

@[simp] theorem hostRead_rstOut (s : State) (o : Nat) : (s.hostRead o).rstOut = s.rstOut := by simp [State.hostRead]

@[simp] theorem hostRead_todo (s : State) (o : Nat) : (s.hostRead o).todo = s.todo := by simp [State.hostRead]

@[simp] theorem hostRead_mem (s : State) (o : Nat) : (s.hostRead o).mem = s.mem := by simp [State.hostRead]

@[simp] theorem hostRead_trace (s : State) (o : Nat) : (s.hostRead o).trace = s.trace := by simp [State.hostRead]

@[simp] theorem hostRead_powerOns (s : State) (o : Nat) : (s.hostRead o).powerOns = s.powerOns := by simp [State.hostRead]

@[simp] theorem hostRead_draws (s : State) (o : Nat) : (s.hostRead o).draws = s.draws := by simp [State.hostRead]

@[simp] theorem hostRead_script (s : State) (o : Nat) : (s.hostRead o).script = s.script := by simp [State.hostRead]

@[simp] theorem hostRead_schedule (s : State) (o : Nat) : (s.hostRead o).schedule = s.schedule := by simp [State.hostRead]


end Sys2Proof.Machine.State
end

