-- ==== Sys2Proof/Laws/Memory.lean ====
section
/-! SUPPORT. Op memory: a read after a write, and the canonical form every write keeps. -/

namespace Sys2Proof.Machine

theorem findByte_append (m n : Memory) (x : Nat) :
    Memory.findByte (m ++ n) x = (m.findByte x).or (n.findByte x) := by
  induction m with
  | nil => rfl
  | cons c m ih =>
    obtain ⟨k, b⟩ := c
    simp only [List.cons_append, Memory.findByte]
    split
    · rfl
    · exact ih

/-- A filter on offsets keeps the byte of every offset it keeps. -/
theorem findByte_filter (p : Nat → Bool) (m : Memory) (x : Nat) :
    Memory.findByte (m.filter (fun c => p c.1)) x = if p x then m.findByte x else none := by
  induction m with
  | nil => simp [Memory.findByte]
  | cons c m ih =>
    obtain ⟨k, b⟩ := c
    by_cases hk : k = x
    · subst hk
      cases h : p k <;> simp [Memory.findByte, h, ih]
    · cases h : p k <;> simp [Memory.findByte, h, hk, ih]

theorem findByte_cellsFrom (bytes : List Byte) (a x : Nat) :
    (cellsFrom a bytes).findByte x = if a ≤ x then bytes[x - a]? else none := by
  induction bytes generalizing a with
  | nil => simp [cellsFrom, Memory.findByte]
  | cons b rest ih =>
    simp only [cellsFrom, Memory.findByte, ih]
    rcases Nat.lt_trichotomy a x with h | h | h
    · have e : x - a = (x - (a + 1)) + 1 := by omega
      rw [if_neg (by omega), if_pos (by omega), if_pos (by omega), e, List.getElem?_cons_succ]
    · subst h; simp
    · rw [if_neg (by omega), if_neg (by omega), if_neg (by omega)]

/-- A read after a write: the written byte inside the run, the old byte outside. -/
theorem findByte_writeBytes (m : Memory) (a : Nat) (bytes : List Byte) (x : Nat) :
    (m.writeBytes a bytes).findByte x =
      if a ≤ x ∧ x < a + bytes.length then bytes[x - a]? else m.findByte x := by
  simp only [Memory.writeBytes, findByte_append, findByte_cellsFrom]
  rw [findByte_filter (fun k => decide (k < a)), findByte_filter (fun k => decide (a + bytes.length ≤ k))]
  by_cases h1 : x < a
  · simp [h1, Nat.not_le.mpr h1, Nat.not_le.mpr (Nat.lt_add_right bytes.length h1)]
  · by_cases h2 : x < a + bytes.length
    · simp [h1, h2, Nat.not_lt.mp h1, Nat.not_le.mpr h2]
    · have : bytes[x - a]? = none := List.getElem?_eq_none (by omega)
      simp [h1, h2, Nat.not_lt.mp h1, Nat.not_lt.mp h2, this]

theorem mem_cellsFrom {bytes : List Byte} {a : Nat} {c : Host.Cell} (h : c ∈ cellsFrom a bytes) :
    a ≤ c.1 ∧ c.1 < a + bytes.length := by
  induction bytes generalizing a with
  | nil => simp [cellsFrom] at h
  | cons b rest ih =>
    simp only [cellsFrom, List.mem_cons] at h
    simp only [List.length_cons]
    rcases h with rfl | h
    · exact ⟨Nat.le_refl _, by omega⟩
    · have := ih h; omega

theorem cellsFrom_rising (bytes : List Byte) (a : Nat) :
    (cellsFrom a bytes).Pairwise (fun c d => c.1 < d.1) := by
  induction bytes generalizing a with
  | nil => exact List.Pairwise.nil
  | cons b rest ih =>
    refine List.Pairwise.cons (fun c hc => ?_) (ih _)
    exact (mem_cellsFrom hc).1

/-- A write inside the op memory keeps the canonical form. -/
theorem writeBytes_wf {words : Nat} {m : Memory} {a : Nat} {bytes : List Byte} (h : m.wf words)
    (lo : Config.opmemBase ≤ a) (hi : a + bytes.length ≤ Config.opmemBase + 4 * words) :
    (m.writeBytes a bytes).wf words := by
  obtain ⟨rising, inside⟩ := h
  refine ⟨?_, fun c hc => ?_⟩
  · rw [Memory.writeBytes, List.pairwise_append, List.pairwise_append]
    refine ⟨⟨rising.filter _, cellsFrom_rising _ _, fun c hc d hd => ?_⟩, rising.filter _, fun c hc d hd => ?_⟩
    · have := mem_cellsFrom hd
      simp only [List.mem_filter, decide_eq_true_eq] at hc
      omega
    · simp only [List.mem_filter, decide_eq_true_eq] at hd
      rcases List.mem_append.mp hc with hc | hc
      · simp only [List.mem_filter, decide_eq_true_eq] at hc
        omega
      · have := mem_cellsFrom hc
        omega
  · simp only [Memory.writeBytes, List.mem_append] at hc
    rcases hc with (hc | hc) | hc
    · exact inside c (List.mem_filter.mp hc).1
    · have := mem_cellsFrom hc
      omega
    · exact inside c (List.mem_filter.mp hc).1

/-- Writing no byte leaves a canonical memory as it is. -/
theorem writeBytes_nil {words : Nat} {m : Memory} (h : m.wf words) (a : Nat) : m.writeBytes a [] = m := by
  have rising := h.1
  clear h
  simp only [Memory.writeBytes, cellsFrom, List.append_nil, List.length_nil, Nat.add_zero]
  induction m with
  | nil => rfl
  | cons c m ih =>
    obtain ⟨above, rising⟩ := List.pairwise_cons.mp rising
    by_cases hc : c.1 < a
    · simp only [List.filter_cons, hc, decide_true, if_true, Nat.not_le.mpr hc, decide_false, Bool.false_eq_true,
        if_false, List.cons_append, ih rising]
    · have none : m.filter (fun d => decide (d.1 < a)) = [] := by
        rw [List.filter_eq_nil_iff]
        intro d hd
        have := above d hd
        simp only [decide_eq_true_eq]
        omega
      have all : m.filter (fun d => decide (a ≤ d.1)) = m := by
        rw [List.filter_eq_self]
        intro d hd
        have := above d hd
        simp only [decide_eq_true_eq]
        omega
      simp only [List.filter_cons, hc, decide_false, Bool.false_eq_true, if_false, Nat.not_lt.mp hc, decide_true,
        if_true, none, all, List.nil_append]

/-- The memory right after reset is canonical. -/
theorem reset_wf : State.reset.mem.wf State.reset.params.opmemWords := ⟨List.Pairwise.nil, by simp [State.reset]⟩

@[simp] theorem wordBytes_length (w : Word) : (wordBytes w).length = 4 := rfl

/-- The byte at an offset after a word is stored: a byte of the word inside it, the old byte outside. -/
theorem byteAt_writeWord (s : State) (a : Nat) (w : Word) (x : Nat) :
    (s.writeWord a w).byteAt x = if a ≤ x ∧ x < a + 4 then wordByte w (x - a) else s.byteAt x := by
  have len : (wordBytes w).length = 4 := rfl
  simp only [State.byteAt, State.writeWord_mem, State.writeWord_powerOns, findByte_writeBytes]
  by_cases h : a ≤ x ∧ x < a + 4
  · rw [if_pos (by rw [len]; exact h), if_pos h]
    obtain e | e | e | e : x - a = 0 ∨ x - a = 1 ∨ x - a = 2 ∨ x - a = 3 := by omega
    all_goals simp [e, wordBytes]
  · rw [if_neg (by rw [len]; exact h), if_neg h]

/-- The bytes of a word, put together again, are the word. -/
theorem wordBytes_join (w : Word) :
    (wordByte w 3 ++ wordByte w 2 ++ wordByte w 1 ++ wordByte w 0 : Word) = w := by
  apply BitVec.eq_of_getLsbD_eq
  intro i hi
  simp only [wordByte, BitVec.getLsbD_append, BitVec.getLsbD_extractLsb']
  split
  · simp_all
  · split
    · rw [show 8 * 1 + (i - 8) = i by omega]; simp_all
    · split
      · rw [show 8 * 2 + (i - 8 - 8) = i by omega]; simp_all
      · rw [show 8 * 3 + (i - 8 - 8 - 8) = i by omega]; simp_all; omega

/-- Reading a word just stored gives it back. -/
theorem wordAt_writeWord_same (s : State) (a : Nat) (w : Word) : (s.writeWord a w).wordAt a = w := by
  have e : ∀ k < 4, (s.writeWord a w).byteAt (a + k) = wordByte w k := by
    intro k hk
    rw [byteAt_writeWord, if_pos (by omega), Nat.add_sub_cancel_left]
  have e0 : (s.writeWord a w).byteAt a = wordByte w 0 := e 0 (by omega)
  rw [State.wordAt, e 3 (by omega), e 2 (by omega), e 1 (by omega), e0]
  exact wordBytes_join w

/-- Storing a word leaves every word that shares no byte with it. -/
theorem wordAt_writeWord_other (s : State) (a x : Nat) (w : Word) (h : x + 4 ≤ a ∨ a + 4 ≤ x) :
    (s.writeWord a w).wordAt x = s.wordAt x := by
  have e : ∀ k < 4, (s.writeWord a w).byteAt (x + k) = s.byteAt (x + k) := by
    intro k hk
    rw [byteAt_writeWord, if_neg (by omega)]
  have e0 : (s.writeWord a w).byteAt x = s.byteAt x := e 0 (by omega)
  rw [State.wordAt, State.wordAt, e 3 (by omega), e 2 (by omega), e 1 (by omega), e0]

/-- A word that holds the same bytes is the same word. -/
theorem wordAt_congr {s t : State} (h : ∀ a, s.byteAt a = t.byteAt a) (a : Nat) : s.wordAt a = t.wordAt a := by
  simp [State.wordAt, h]

theorem byteAt_congr {s t : State} (hm : s.mem = t.mem) (hp : s.powerOns = t.powerOns) (a : Nat) :
    s.byteAt a = t.byteAt a := by
  simp [State.byteAt, hm, hp]

end Sys2Proof.Machine
end

