-- ==== Sys2Proof/Laws/Ops.lean ====
section
/-! SUPPORT. What the shared operations do: the environment's answers, one action, and one engine step of an op. -/

namespace Sys2Proof.Machine

/-! ### Answers -/

theorem drawAt_zero (s : State) : s.drawAt 0 = s.nextDraw := by
  simp only [State.drawAt, State.nextDraw]
  cases s.script <;> rfl

theorem drawAt_takeDraw (s : State) (k : Nat) : s.takeDraw.drawAt k = s.drawAt (k + 1) := by
  simp only [State.drawAt, State.takeDraw_script, State.takeDraw_draws]
  rw [show s.draws + 1 + k = s.draws + (k + 1) by omega]
  cases s.script <;> simp

theorem drawAt_congr {s t : State} (hs : s.script = t.script) (hd : s.draws = t.draws) (k : Nat) :
    s.drawAt k = t.drawAt k := by
  simp [State.drawAt, hs, hd]

/-- An action is answered `err` exactly where it asks and the draw fails (R14). -/
theorem answer_eq_err {s : State} {a : Action} :
    s.answer a = .err ↔ a.asks = true ∧ s.nextDraw.fails = true := by
  cases a <;> simp [State.answer, Action.asks]

/-- An action that is no POLL and does not fail is answered `ok`. -/
theorem answer_ok {s : State} {a : Action} (h : s.answer a ≠ .err) (hp : a ≠ .poll) : s.answer a = .ok := by
  cases a <;> simp_all [State.answer]

/-- A POLL that does not fail is answered with the drawn level. -/
theorem answer_poll {s : State} (h : s.nextDraw.fails = false) : s.answer .poll = .level s.nextDraw.level := by
  simp [State.answer, h]

/-! ### One action -/

theorem perform_of_err {s : State} {a : Action} (h : s.answer a = .err) :
    s.perform a = (s.ask a).record (.act a .err) := by
  simp [State.perform, h]

theorem perform_of_ok {s : State} {a : Action} (h : s.answer a ≠ .err) :
    s.perform a = ((s.ask a).record (.act a (s.answer a))).drive a := by
  simp [State.perform, h]

theorem actStep_of_err {s : State} {a : Action} (n : Nat) (rest : List Action) (h : s.answer a = .err) :
    s.actStep n a rest = (s.perform a).raise a.failCode := by
  simp [State.actStep, h]

theorem actStep_of_ok {s : State} {a : Action} (n : Nat) (rest : List Action) (h : s.answer a ≠ .err) :
    s.actStep n a rest = (s.perform a).proceed n rest := by
  simp [State.actStep, h]

/-- The byte a host offset reads as changes with no action. -/
@[simp] theorem byteAt_actStep (s : State) (n : Nat) (a : Action) (rest : List Action) (x : Nat) :
    (s.actStep n a rest).byteAt x = s.byteAt x := by
  apply byteAt_congr <;> simp only [State.actStep] <;> split <;> simp

/-- Every field an action step leaves as it was. -/
theorem actStep_frame (s : State) (n : Nat) (a : Action) (rest : List Action) :
    let t := s.actStep n a rest
    t.params = s.params ∧ t.entry = s.entry ∧ t.perByte = s.perByte ∧ t.invert = s.invert ∧ t.expand = s.expand ∧
    t.frameLen = s.frameLen ∧ t.pollInterval = s.pollInterval ∧ t.byteGap = s.byteGap ∧ t.mem = s.mem ∧
    t.powerOns = s.powerOns ∧ t.schedule = s.schedule ∧ t.readData = s.readData ∧
    t.trace = s.trace ++ [.act a (s.answer a)] := by
  simp only [State.actStep]
  split <;> simp

/-! ### The events of a WAIT -/

@[simp] theorem busyEvents_zero (idle : Bit) (interval : Word) : busyEvents idle interval 0 = [] := rfl

/-- One busy read more adds a POLL and a YIELD at the end. -/
theorem busyEvents_succ (idle : Bit) (interval : Word) (n : Nat) :
    busyEvents idle interval (n + 1) =
      busyEvents idle interval n ++ [.act .poll (.level (1 - idle)), .act (.yield interval) .ok] := by
  simp [busyEvents, List.replicate_succ']

/-! ### One engine step of an op -/

/-- The size the meanings use is the size of the encoding (R106). -/
theorem payload_size {i : Instr} (h : i.wellFormed = true) (o : i.opcode = .data ∨ i.opcode = .cmdData ∨ i.opcode = .frame) :
    1 + ceil4 i.payload.length = i.size := by
  have h := of_decide_eq_true h
  cases i <;> simp [Instr.opcode] at o <;>
    simp only [Instr.payload, Instr.size, Instr.opcode, Instr.countField, Opcode.size, Opcode.extensionWords,
      Opcode.payloadWords] at h ⊢ <;> rw [payload_count h]

/-- What one engine step of a well-formed op can do. -/
inductive OpStep (i : Instr) (s : State) : State → Prop where
  /-- END stops the run. -/
  | stops : i = .endOp → OpStep i s { s with engine := .done, todo := [] }
  /-- SETCFG loads the configuration and completes. -/
  | configures (a b c : Bit) (l p g : Word) : i = .setcfg a b c l p g →
      OpStep i s (State.complete { s with
        perByte := a, invert := b, expand := c, frameLen := l, pollInterval := p, byteGap := g } 4)
  /-- The decode stage of an op other than WAIT that has actions: they become the hidden progress. -/
  | begins : s.todo = [] → (∀ idle, i ≠ .wait idle) → opActions s i ≠ [] →
      (∀ c p, i = .frame c p → p.length = s.frameLen.toNat) → OpStep i s { s with todo := opActions s i }
  /-- The decode stage of WAIT. -/
  | waits (idle : Bit) : s.todo = [] → i = .wait idle → OpStep i s s.beginWait
  /-- The decode stage of a FRAME of the wrong length. -/
  | rejects (c : Byte) (p : List Byte) : s.todo = [] → i = .frame c p → p.length ≠ s.frameLen.toNat →
      OpStep i s (s.raise .precondition)
  /-- The next action of an op other than WAIT. -/
  | acts (a : Action) (rest : List Action) : s.todo = a :: rest → i ≠ .endOp → (∀ idle, i ≠ .wait idle) →
      (∀ b c d l p g, i ≠ .setcfg b c d l p g) → OpStep i s (s.actStep i.size a rest)
  /-- The next action of WAIT. -/
  | polls (idle : Bit) (a : Action) (rest : List Action) : s.todo = a :: rest → i = .wait idle →
      OpStep i s (s.actStep 1 a (waitRest idle s.pollInterval rest (s.answer a)))

/-- `exec` answers a next state for every op in every state. -/
theorem exec_total (i : Instr) (s : State) : ∃ t, exec i s = .next t := by
  cases i <;> exact ⟨_, rfl⟩

/-- Inversion of `exec`: one engine step of a well-formed op is one of the cases above. -/
theorem exec_cases {i : Instr} {s t : State} (hi : i.wellFormed = true) (h : exec i s = .next t) : OpStep i s t := by
  have size := fun o => (payload_size hi o).symm
  cases i with
  | endOp => cases h; exact .stops rfl
  | setcfg a b c l p g => cases h; exact .configures a b c l p g rfl
  | wait idle =>
    simp only [exec, execWait, Host.Outcome.next.injEq] at h
    subst h
    cases ht : s.todo with
    | nil => exact .waits idle ht rfl
    | cons a rest => exact .polls idle a rest ht rfl
  | frame c p =>
    simp only [exec, execFrame, Host.Outcome.next.injEq] at h
    subst h
    cases ht : s.todo with
    | nil =>
      simp only [State.beginFrame]
      split
      · rename_i hl
        exact .begins ht (by simp) (by simp [opActions, frameActions, cmdActions]) (by rintro _ _ ⟨⟩; exact hl)
      · exact .rejects c p ht rfl ‹_›
    | cons a rest =>
      have e := size (by simp [Instr.opcode])
      simp only [Instr.payload] at e
      simp only [← e]
      exact .acts a rest ht (by simp) (by simp) (by simp)
  | cmd c =>
    simp only [exec, execCmd, State.opStep, Host.Outcome.next.injEq] at h
    subst h
    cases ht : s.todo with
    | nil => exact .begins ht (by simp) (by simp [opActions, cmdActions]) (by simp)
    | cons a rest => exact .acts a rest ht (by simp) (by simp) (by simp)
  | reset a b =>
    simp only [exec, execReset, State.opStep, Host.Outcome.next.injEq] at h
    subst h
    cases ht : s.todo with
    | nil => exact .begins ht (by simp) (by simp [opActions, resetActions]) (by simp)
    | cons a rest => exact .acts a rest ht (by simp) (by simp) (by simp)
  | fill v n =>
    simp only [exec, execFill, State.opStep, Host.Outcome.next.injEq] at h
    subst h
    cases ht : s.todo with
    | nil => exact .begins ht (by simp) (by simp [opActions, fillActions]) (by simp)
    | cons a rest => exact .acts a rest ht (by simp) (by simp) (by simp)
  | data p =>
    simp only [exec, execData, State.opStep, Host.Outcome.next.injEq] at h
    subst h
    have e := size (by simp [Instr.opcode])
    simp only [Instr.payload] at e
    cases ht : s.todo with
    | nil => exact .begins ht (by simp) (by simp [opActions, dataActions]) (by simp)
    | cons a rest =>
      simp only [← e]
      exact .acts a rest ht (by simp) (by simp) (by simp)
  | cmdData c p =>
    simp only [exec, execCmdData, State.opStep, Host.Outcome.next.injEq] at h
    subst h
    have e := size (by simp [Instr.opcode])
    simp only [Instr.payload] at e
    cases ht : s.todo with
    | nil => exact .begins ht (by simp) (by simp [opActions, cmdDataActions, cmdActions]) (by simp)
    | cons a rest =>
      simp only [← e]
      exact .acts a rest ht (by simp) (by simp) (by simp)

/-- No engine step of an op touches the op memory (20_memory.md R75), nor the parameters, ENTRY, the schedule or the
host's data. -/
theorem exec_frame {i : Instr} {s t : State} (hi : i.wellFormed = true) (h : exec i s = .next t) :
    t.params = s.params ∧ t.entry = s.entry ∧ t.mem = s.mem ∧ t.powerOns = s.powerOns ∧ t.schedule = s.schedule ∧
      t.readData = s.readData := by
  cases exec_cases hi h with
  | stops => simp
  | configures => simp
  | begins => simp
  | waits => simp
  | rejects => simp
  | acts a rest =>
    have := actStep_frame s i.size a rest
    simp_all
  | polls idle a rest =>
    have := actStep_frame s 1 a (waitRest idle s.pollInterval rest (s.answer a))
    simp_all

end Sys2Proof.Machine
end

