-- ==== Sys2Proof/Laws/PerInstr.lean ====
section
/-! SUPPORT. What is said of every op as syntax: its header word has the pattern of its row of the opcode map and of no
other (30_encoding.md R107). -/

namespace Sys2Proof.Laws

/-- The header word that encode writes for the op. -/
def headerOf (i : Instr) : Word := headerWord i.opcode.opc i.codeField i.countField

/-- The op's header word matches its own row of R107, and no other row. -/
def Header.Statement (i : Instr) : Prop :=
  headerOf i &&& i.opcode.mask = i.opcode.pattern ∧
    ∀ o : Opcode, headerOf i &&& o.mask = o.pattern → o = i.opcode

theorem header_statement (i : Instr) : Header.Statement i := by
  refine ⟨(match_iff _ _).mpr ⟨headerOpc_headerWord _ _ _, headerWord_mustBeZero i⟩, fun o h => ?_⟩
  have e := ((match_iff o _).mp h).1
  rw [headerOf, headerOpc_headerWord] at e
  exact Option.some.inj ((ofOpc_opc o).symm.trans (by rw [← e, ofOpc_opc]))

theorem Header.endOp : Header.Statement .endOp := header_statement _

theorem Header.reset (assertUs settleUs : Word) : Header.Statement (.reset assertUs settleUs) := header_statement _

theorem Header.cmd (code : Byte) : Header.Statement (.cmd code) := header_statement _

theorem Header.data (payload : List Byte) : Header.Statement (.data payload) := header_statement _

theorem Header.cmdData (code : Byte) (payload : List Byte) : Header.Statement (.cmdData code payload) :=
  header_statement _

theorem Header.fill (value : Byte) (count : BitVec 20) : Header.Statement (.fill value count) := header_statement _

theorem Header.frame (code : Byte) (payload : List Byte) : Header.Statement (.frame code payload) :=
  header_statement _

theorem Header.wait (idle : Bit) : Header.Statement (.wait idle) := header_statement _

theorem Header.setcfg (perByte invert expand : Bit) (frameLen pollInterval byteGap : Word) :
    Header.Statement (.setcfg perByte invert expand frameLen pollInterval byteGap) := header_statement _

end Sys2Proof.Laws
end

