-- ==== Sys2Proof/Laws/Stream.lean ====
section
/-! SUPPORT. What the actions of a stream and of an op are made of (42_framer.md R161, R162). -/

namespace Sys2Proof.Machine

/-- Every action of a per-byte stream is a one-byte transaction or a gap. -/
theorem mem_perByteStream {gap : Word} {bytes : List Byte} {a : Action} (h : a ∈ perByteStream gap bytes) :
    (∃ b, a = .xfer [b]) ∨ a = .delay gap := by
  fun_induction perByteStream gap bytes with
  | case1 => simp at h
  | case2 b => exact .inl ⟨b, by simpa using h⟩
  | case3 _ b c rest ih =>
    rcases List.mem_cons.mp h with rfl | h
    · exact .inl ⟨_, rfl⟩
    · exact ih h
  | case4 _ b c rest ih =>
    rcases List.mem_cons.mp h with rfl | h
    · exact .inl ⟨_, rfl⟩
    · rcases List.mem_cons.mp h with rfl | h
      · exact .inr rfl
      · exact ih h

/-- Every action of a stream is a transaction of at least one byte or a gap (R161, R162). -/
theorem mem_stream {perByte : Bit} {gap : Word} {bytes : List Byte} {a : Action} (h : a ∈ stream perByte gap bytes) :
    (∃ b rest, a = .xfer (b :: rest)) ∨ a = .delay gap := by
  cases bytes with
  | nil => simp [stream] at h
  | cons b rest =>
    simp only [stream] at h
    split at h
    · rcases mem_perByteStream h with ⟨b, rfl⟩ | h
      · exact .inl ⟨b, [], rfl⟩
      · exact .inr h
    · exact .inl ⟨b, rest, by simpa using h⟩

/-- A per-byte stream has at most one transaction and one gap a byte. -/
theorem perByteStream_length (gap : Word) (bytes : List Byte) :
    (perByteStream gap bytes).length ≤ 2 * bytes.length - 1 := by
  fun_induction perByteStream gap bytes with
  | case1 => simp
  | case2 => simp
  | case3 _ b c rest ih => simp only [List.length_cons] at *; omega
  | case4 _ b c rest ih => simp only [List.length_cons] at *; omega

theorem stream_length (perByte : Bit) (gap : Word) (bytes : List Byte) :
    (stream perByte gap bytes).length ≤ 2 * bytes.length - 1 := by
  cases bytes with
  | nil => simp [stream]
  | cons b rest =>
    simp only [stream]
    split
    · exact perByteStream_length gap _
    · simp only [List.length_cons, List.length_nil]; omega

@[simp] theorem expandBytes_length (p : List Byte) : (expandBytes p).length = 4 * p.length := by
  induction p with
  | nil => rfl
  | cons b p ih =>
    simp only [expandBytes, List.flatMap_cons, List.length_append, List.length_cons] at *
    rw [ih]
    simp only [expand1, List.length_cons, List.length_nil]
    omega

theorem transform_length_le (invert expand : Bit) (p : List Byte) :
    (transform invert expand p).length ≤ 4 * p.length := by
  simp only [transform, List.length_map]
  split
  · simp
  · omega

/-- No op but WAIT has a POLL or a YIELD among its actions, and none has an empty transaction. -/
theorem mem_opActions {s : State} {i : Instr} {a : Action} (h : a ∈ opActions s i) :
    a ≠ .xfer [] ∧ ((∀ idle, i ≠ .wait idle) → a ≠ .poll ∧ ∀ d, a ≠ .yield d) := by
  have line : ∀ l : List Byte, ∀ a ∈ stream s.perByte s.byteGap l, a ≠ .xfer [] ∧ a ≠ .poll ∧ ∀ d, a ≠ .yield d := by
    intro l a ha
    rcases mem_stream ha with ⟨b, rest, rfl⟩ | rfl <;> simp
  cases i with
  | endOp => simp [opActions] at h
  | setcfg => simp [opActions] at h
  | wait => simp [opActions] at h; subst h; simp
  | reset => simp [opActions, resetActions] at h; rcases h with rfl | rfl | rfl | rfl <;> simp
  | cmd => simp [opActions, cmdActions] at h; rcases h with rfl | rfl <;> simp
  | data p =>
    simp only [opActions, dataActions, List.mem_cons] at h
    rcases h with rfl | h
    · simp
    · have := line _ _ h; simp_all
  | fill v n =>
    simp only [opActions, fillActions, List.mem_cons] at h
    rcases h with rfl | h
    · simp
    · have := line _ _ h; simp_all
  | cmdData c p =>
    simp only [opActions, cmdDataActions, cmdActions, dataActions, List.cons_append, List.nil_append,
      List.mem_cons] at h
    rcases h with rfl | rfl | rfl | h
    · simp
    · simp
    · simp
    · have := line _ _ h; simp_all
  | frame c p =>
    simp only [opActions, frameActions, cmdActions, List.cons_append, List.nil_append, List.mem_cons] at h
    rcases h with rfl | rfl | rfl | h
    · simp
    · simp
    · simp
    · have := line _ _ h; simp_all

/-- A RESET drives the reset line and waits, and no other op has a SETRST; only RESET has none of SETDC and XFER. -/
theorem mem_opActions_bus {s : State} {i : Instr} {a : Action}
    (hi : i.opcode ∈ [Opcode.cmd, .data, .cmdData, .fill, .frame]) (h : a ∈ opActions s i) :
    (∃ k, a = .setDC k) ∨ (∃ b, a = .xfer b) ∨ ∃ d, a = .delay d := by
  have line : ∀ l : List Byte, ∀ a ∈ stream s.perByte s.byteGap l,
      (∃ k, a = .setDC k) ∨ (∃ b, a = .xfer b) ∨ ∃ d, a = .delay d := by
    intro l a ha
    rcases mem_stream ha with ⟨b, rest, rfl⟩ | rfl <;> simp
  cases i <;> simp [Instr.opcode] at hi
  · simp [opActions, cmdActions] at h; rcases h with rfl | rfl <;> simp
  · simp only [opActions, dataActions, List.mem_cons] at h
    rcases h with rfl | h
    · simp
    · exact line _ _ h
  · simp only [opActions, cmdDataActions, cmdActions, dataActions, List.cons_append, List.nil_append,
      List.mem_cons] at h
    rcases h with rfl | rfl | rfl | h
    · simp
    · simp
    · simp
    · exact line _ _ h
  · simp only [opActions, fillActions, List.mem_cons] at h
    rcases h with rfl | h
    · simp
    · exact line _ _ h
  · simp only [opActions, frameActions, cmdActions, List.cons_append, List.nil_append, List.mem_cons] at h
    rcases h with rfl | rfl | rfl | h
    · simp
    · simp
    · simp
    · exact line _ _ h

/-- The actions of an op depend on the state only through the configuration. -/
theorem opActions_congr {s t : State} (i : Instr) (h1 : s.perByte = t.perByte) (h2 : s.byteGap = t.byteGap)
    (h3 : s.invert = t.invert) (h4 : s.expand = t.expand) : opActions s i = opActions t i := by
  cases i <;> simp [opActions, dataActions, cmdDataActions, fillActions, frameActions, h1, h2, h3, h4]

end Sys2Proof.Machine
end

