-- ==== Sys2Proof/Laws/Step.lean ====
section
/-! SUPPORT. What a step of the machine is in each turn, and what a host access can do. -/

namespace Sys2Proof.Machine

theorem running_iff {s : State} : s.running = true ↔ s.engine = .run ∨ s.engine = .wait := by
  simp only [State.running]
  cases s.engine <;> simp

theorem not_running_iff {s : State} :
    s.running = false ↔ s.engine = .idle ∨ s.engine = .done ∨ s.engine = .fault := by
  simp only [State.running]
  cases s.engine <;> simp

/-- A step in the engine's turn is a step of the engine. -/
theorem step_engineTurn {s r : State} (h : EngineTurn s r) : step s = engineStep r := by
  rcases h with ⟨hs, rfl⟩ | ⟨rest, hs, rfl⟩ <;> simp [step, hs]

/-- A step in the host's turn is its access. -/
theorem step_hostTurn {s r : State} {a : HostAccess} (h : HostTurn s a r) : step s = hostAccess a r := by
  obtain ⟨rest, hs, rfl⟩ := h
  simp [step, hs]

/-- Whose turn it is: the engine's, the host's, or the power-on reset's. -/
theorem turn_cases (s : State) :
    (∃ r, EngineTurn s r) ∨ (∃ a r, HostTurn s a r) ∨ ∃ rest, s.schedule = .powerOn :: rest := by
  cases h : s.schedule with
  | nil => exact .inl ⟨s, .inl ⟨h, rfl⟩⟩
  | cons u rest =>
    cases u with
    | engine => exact .inl ⟨_, .inr ⟨rest, h, rfl⟩⟩
    | host a => exact .inr (.inl ⟨a, _, rest, h, rfl⟩)
    | powerOn => exact .inr (.inr ⟨rest, rfl⟩)

/-- The state in which the engine takes its turn differs from `s` in the schedule only. -/
theorem engineTurn_same {s r : State} (h : EngineTurn s r) : r = { s with schedule := r.schedule } := by
  rcases h with ⟨_, rfl⟩ | ⟨rest, _, rfl⟩ <;> rfl

theorem hostTurn_same {s r : State} {a : HostAccess} (h : HostTurn s a r) : r = { s with schedule := r.schedule } := by
  obtain ⟨rest, _, rfl⟩ := h
  rfl

/-- An engine step: the decoded op, a decode fault, or nothing where the engine is stopped (R141). -/
theorem engineStep_cases {r t : State} (h : engineStep r = .next t) :
    (r.running = true ∧ ∃ i, r.fetch = .ok i ∧ exec i r = .next t) ∨
    (r.running = true ∧ ∃ e, r.fetch = .error e ∧ t = r.raise (decodeFault e)) ∨
    (r.running = false ∧ t = r) := by
  unfold engineStep at h
  split at h
  · rename_i hr
    cases hf : r.fetch with
    | ok i => simp only [hf] at h; exact .inl ⟨hr, i, rfl, h⟩
    | error e => simp only [hf] at h; cases h; exact .inr (.inl ⟨hr, e, rfl, rfl⟩)
  · rename_i hr
    cases h
    exact .inr (.inr ⟨by simpa using hr, rfl⟩)

/-- A decoded op is well formed. -/
theorem fetch_wellFormed {s : State} {i : Instr} (h : s.fetch = .ok i) : i.wellFormed = true := (decode_ok_fits h).1

/-- A decoded op lies inside the op memory (R111). -/
theorem fetch_fits {s : State} {i : Instr} (h : s.fetch = .ok i) :
    s.pc.toNat + i.size ≤ s.params.opmemWords := by
  have h1 := (decode_ok_fits h).2
  obtain ⟨o, h2, -⟩ := decode_eq_ok.mp h
  simp only [State.wordsLeft] at h1 h2
  omega

/-- What is decoded at PC depends on PC, the op memory and its size only. -/
theorem fetch_congr {s t : State} (hp : s.params = t.params) (hc : s.pc = t.pc) (hb : ∀ a, s.byteAt a = t.byteAt a) :
    s.fetch = t.fetch := by
  simp only [State.fetch, State.wordsLeft, State.opWord, hp, hc, wordAt_congr hb]

/-- A host access that is performed is aligned, 32 bits wide and inside the address space (R70, R73). -/
theorem checkAccess_next {w : AccessWidth} {o : Nat} {g t : State} :
    checkAccess w o g = .next t ↔ o < Config.hostSpace ∧ w = .word ∧ o % 4 = 0 ∧ t = g := by
  simp only [checkAccess]
  split
  · simp; omega
  · split
    · simp_all
    · split
      · simp_all
      · simp_all [eq_comm]

/-- Everything a performed host access can do (R53, R76): a read gives the host its data; a write is an SRESET, a START
of a stopped engine, a new ENTRY, a word of op memory while the engine is stopped, or nothing. -/
theorem hostAccess_cases {a : HostAccess} {r t : State} (h : hostAccess a r = .next t) :
    (∃ w o, a = .read w o ∧ t = r.hostRead o) ∨
    (∃ v, a = .write .word 0 v ∧ v.getLsbD 1 = true ∧ t = r.softReset) ∨
    (∃ v, a = .write .word 0 v ∧ v.getLsbD 1 = false ∧ v.getLsbD 0 = true ∧ r.running = false ∧ t = r.start) ∨
    (∃ v, a = .write .word 0x00C v ∧ t = { r with entry := v }) ∨
    (∃ o v, a = .write .word o v ∧ o % 4 = 0 ∧ r.inOpMemory o = true ∧ r.running = false ∧ t = r.writeWord o v) ∨
    t = r := by
  cases a with
  | read w o =>
    obtain ⟨-, -, -, rfl⟩ := checkAccess_next.mp h
    exact .inl ⟨w, o, rfl, rfl⟩
  | write w o v =>
    obtain ⟨-, rfl, h4, rfl⟩ := checkAccess_next.mp h
    simp only [State.hostWrite, State.writeCtrl, State.start]
    split
    · rename_i h0; subst h0
      cases h1 : v.getLsbD 1
      · cases h2 : v.getLsbD 0
        · simp
        · cases h3 : r.running
          · exact .inr (.inr (.inl ⟨v, rfl, h1, h2, rfl, by simp⟩))
          · simp
      · exact .inr (.inl ⟨v, rfl, h1, by simp⟩)
    · split
      · rename_i hc; subst hc
        exact .inr (.inr (.inr (.inl ⟨v, rfl, rfl⟩)))
      · split
        · rename_i hm
          cases h3 : r.running
          · exact .inr (.inr (.inr (.inr (.inl ⟨o, v, rfl, h4, hm, rfl, by simp⟩))))
          · simp
        · simp

/-- A host access that is performed keeps the op memory canonical. -/
theorem hostAccess_wf {a : HostAccess} {r t : State} (h : hostAccess a r = .next t)
    (wf : r.mem.wf r.params.opmemWords) : t.mem.wf t.params.opmemWords := by
  rcases hostAccess_cases h with ⟨_, _, rfl, rfl⟩ | ⟨_, rfl, _, rfl⟩ | ⟨_, rfl, _, _, hn, rfl⟩ | ⟨_, rfl, rfl⟩ |
    ⟨o, v, rfl, h4, hm, _, rfl⟩ | rfl
  · simpa using wf
  · simpa [State.softReset] using wf
  · simpa [State.start, hn] using wf
  · exact wf
  · simp only [State.inOpMemory, decide_eq_true_eq] at hm
    refine writeBytes_wf wf hm.1 ?_
    simp only [Config.opmemBase, wordBytes_length, State.writeWord_params] at hm ⊢
    omega
  · exact wf

@[simp] theorem numberBytes_length (v n k : Nat) : (numberBytes v n k).length = n := by
  induction n generalizing k with
  | zero => rfl
  | succ n ih => simp [numberBytes, ih]

/-- Placing an op keeps the op memory canonical. -/
theorem placeOp_wf {s : State} (nbits w : Nat) (wf : s.mem.wf s.params.opmemWords) :
    (s.placeOp nbits w).mem.wf (s.placeOp nbits w).params.opmemWords := by
  have le : s.placedWords nbits w ≤ s.params.opmemWords - s.pc.toNat := Nat.min_le_right _ _
  rcases Nat.eq_zero_or_pos (s.placedWords nbits w) with h0 | h0
  · have e : s.placeOp nbits w = s := by
      simp only [State.placeOp, h0, Nat.mul_zero, numberBytes, writeBytes_nil wf]
    rw [e]
    exact wf
  · refine writeBytes_wf wf (by simp only [wordOffset]; omega) ?_
    simp only [numberBytes_length, wordOffset, State.placeOp]
    omega

/-- What one step of the machine can do, in terms of the state the turn is taken in. -/
theorem step_cases {s t : State} (h : step s = .next t) :
    (∃ r, EngineTurn s r ∧ engineStep r = .next t) ∨ (∃ a r, HostTurn s a r ∧ hostAccess a r = .next t) ∨
    ∃ rest, s.schedule = .powerOn :: rest ∧ t = State.powerOn { s with schedule := rest } := by
  rcases turn_cases s with ⟨r, hr⟩ | ⟨a, r, hr⟩ | ⟨rest, hr⟩
  · exact .inl ⟨r, hr, by rw [← step_engineTurn hr]; exact h⟩
  · exact .inr (.inl ⟨a, r, hr, by rw [← step_hostTurn hr]; exact h⟩)
  · refine .inr (.inr ⟨rest, hr, ?_⟩)
    simp only [step, hr] at h
    cases h
    rfl

end Sys2Proof.Machine
end

