-- ==== Sys2Proof/Tests/Slice0.lean ====
section
/-! SUPPORT. Tests: ill-formed ops, words written out from the spec's encodings, single steps with the results of
95_test_vectors.md, and a witness for the hypotheses of each statement. -/

namespace Sys2Proof.Tests

open Sys2Proof.Machine

/-! ### Well-formedness (30_encoding.md R103): at most 1,048,575 payload bytes -/

theorem test_illFormed_data : (Instr.data (List.replicate 1048576 0)).wellFormed = false := by
  rw [Instr.wellFormed, Instr.payload, List.length_replicate]
  decide

theorem test_illFormed_cmdData : (Instr.cmdData 0x01 (List.replicate 1048576 0)).wellFormed = false := by
  rw [Instr.wellFormed, Instr.payload, List.length_replicate]
  decide

theorem test_illFormed_frame : (Instr.frame 0x10 (List.replicate 1048576 0)).wellFormed = false := by
  rw [Instr.wellFormed, Instr.payload, List.length_replicate]
  decide

theorem test_wellFormed_longest : (Instr.data (List.replicate 1048575 0)).wellFormed = true := by
  rw [Instr.wellFormed, Instr.payload, List.length_replicate]
  decide

/-! ### Decode: one word for each op, from R101, R105, R107, and the words R108, R109 call illegal -/

theorem test_decode_end : decodeWords [0x00000000] = .ok .endOp := by decide
theorem test_decode_reset : decodeWords [0x10000000, 0x00002710, 0x000007D0] = .ok (.reset 10000 2000) := by decide
theorem test_decode_cmd : decodeWords [0x2FF00000] = .ok (.cmd 0xFF) := by decide
theorem test_decode_data : decodeWords [0x30000005, 0x44332211, 0xEEEEEE55] = .ok (.data [0x11, 0x22, 0x33, 0x44, 0x55]) := by
  decide
theorem test_decode_data_empty : decodeWords [0x30000000] = .ok (.data []) := by decide
theorem test_decode_cmdData : decodeWords [0x40100002, 0x00000003] = .ok (.cmdData 0x01 [0x03, 0x00]) := by decide
theorem test_decode_fill : decodeWords [0x5ABFFFFF] = .ok (.fill 0xAB 1048575) := by decide
theorem test_decode_frame : decodeWords [0x61000002, 0x0000F00F] = .ok (.frame 0x10 [0x0F, 0xF0]) := by decide
theorem test_decode_wait : decodeWords [0x70000001] = .ok (.wait 1) := by decide
theorem test_decode_setcfg : decodeWords [0x80000003, 2, 0, 10] = .ok (.setcfg 1 1 0 2 0 10) := by decide

/-- SQ-2, SQ-5, SQ-6, SQ-7, SQ-8, SQ-9. -/
theorem test_decode_mustBeZero :
    decodeWords [0x00000001] = .error .mustBeZero ∧ decodeWords [0x20000001] = .error .mustBeZero ∧
    decodeWords [0x30100000] = .error .mustBeZero ∧ decodeWords [0x70000002] = .error .mustBeZero ∧
    decodeWords [0x80000008, 0, 0, 0, 0] = .error .mustBeZero ∧
    decodeWords [0x10100000, 0, 0, 0] = .error .mustBeZero := ⟨rfl, rfl, rfl, rfl, rfl, rfl⟩

/-- SQ-3, SQ-4. -/
theorem test_decode_reserved :
    decodeWords [0x90000000] = .error .reservedOpcode ∧ decodeWords [0xF1234567] = .error .reservedOpcode := ⟨rfl, rfl⟩

/-- SQ-12, and SQ-13: the must-be-zero bit wins over the overrun. -/
theorem test_decode_order : decodeWords [0x30000009, 0x44332211, 0x88776655] = .error .wordsPastEnd ∧
    decodeWords [0x80000008, 0] = .error .mustBeZero ∧ decodeWords [] = .error .headerPastEnd := ⟨rfl, rfl, rfl⟩

/-- S6 of 95_test_vectors.md: the words of `update_display 0x10, 0x12, 1, 0xAA, 0x55`. -/
theorem test_assemble_updateDisplay : assemble (updateDisplayOps 0x10 0x12 1 [0xAA, 0x55]) =
    [0x61000002, 0x000055AA, 0x21200000, 0x70000001] := by decide

theorem test_tableWord : decodeTableWord 96 0x000007D00000271010000000 = some (.reset 10000 2000) := by decide

/-! ### States to step from -/

/-- An answer without failure, at a busy level. -/
def good (level : Bit) : Config.Draw := { fails := false, level := level }

/-- A failure. -/
def bad : Config.Draw := { fails := true, level := 0 }

/-- A running engine after reset, inside an op with actions left, and the environment's next answers. -/
def inRun (script : List Config.Draw) (todo : List Action) : State :=
  { State.reset with engine := .run, script := script, todo := todo }

/-- The state after reset in which the host has the next turn. -/
def hosted (engine : EngineState) (a : HostAccess) : State :=
  { State.reset with engine := engine, schedule := [.host a] }

/-- A running engine about to fetch the op of `nbits` bits `w` at PC. -/
def loaded (nbits w : Nat) : State := State.reset.withFetchWord nbits w

/-- What a test looks at in the outcome of a step: STATUS, PC, TRACE, the progress. -/
def seen : Host.Outcome State Fault Refusal → Option (Word × Word × List Event × List Action)
  | .next t => some (t.statusWord, t.pc, t.trace, t.todo)
  | .fault _ => none
  | .refused _ => none

/-- The line registers after a step: DC_OUT, DC_VALID, RST_OUT. -/
def lines : Host.Outcome State Fault Refusal → Option (Bit × Bit × Bit)
  | .next t => some (t.dcOut, t.dcValid, t.rstOut)
  | .fault _ => none
  | .refused _ => none

/-! ### One step each -/

/-- SQ-1. -/
theorem test_end : seen (step (loaded 32 0)) = some (3, 0, [], []) := by decide

/-- SQ-10: CFG 0x7, FRAME_LEN 1, POLL_INTERVAL 2, BYTE_GAP 3, PC 4. -/
theorem test_setcfg : ∃ t, step (loaded 128 0x00000003000000020000000180000007) = .next t ∧ t.cfgWord = 7 ∧
    t.frameLen = 1 ∧ t.pollInterval = 2 ∧ t.byteGap = 3 ∧ t.pc = 4 := ⟨_, rfl, by decide⟩

/-- FR-1, its last action, and LINES bits 1:0 = 0b10. -/
theorem test_cmd : seen (exec (.cmd 0x00) (inRun [good 0] [.xfer [0x00]])) = some (1, 1, [.act (.xfer [0]) .ok], []) := by
  decide

theorem test_cmd_line : lines (exec (.cmd 0x00) (inRun [good 0] [.setDC .cmd, .xfer [0x00]])) = some (0, 1, 1) := by
  decide

/-- FR-7: in per-byte mode a gap of 3 between two bytes. -/
theorem test_data : seen (exec (.data [0x11, 0x22]) { inRun [] [] with perByte := 1, byteGap := 3 }) =
    some (1, 0, [], [.setDC .data, .xfer [0x11], .delay 3, .xfer [0x22]]) := by decide

/-- FR-9: a transaction that fails: STATUS 0x104, and no later byte. -/
theorem test_data_fails : seen (exec (.data [0x33, 0x44]) (inRun [bad] [.xfer [0x33], .xfer [0x44]])) =
    some (0x104, 0, [.act (.xfer [0x33]) .err], []) := by decide

/-- FR-10, its actions. -/
theorem test_cmdData : seen (exec (.cmdData 0x01 [0x03, 0x00]) (inRun [] [])) =
    some (1, 0, [], [.setDC .cmd, .xfer [0x01], .setDC .data, .xfer [0x03, 0x00]]) := by decide

/-- FR-12: a select line that fails: STATUS 0x204. -/
theorem test_cmdData_fails : seen (exec (.cmdData 0x01 []) (inRun [bad] [.setDC .cmd, .xfer [0x01], .setDC .data])) =
    some (0x204, 0, [.act (.setDC .cmd) .err], []) := by decide

/-- RT-1: after the last action PC is 3. -/
theorem test_reset : seen (exec (.reset 10000 2000) (inRun [] [.delay 2000])) =
    some (1, 3, [.act (.delay 2000) .ok], []) := by decide

/-- RT-1: the first line write drives RST low. -/
theorem test_reset_line : (match exec (.reset 5 6) (inRun [good 0] [.setRST 0, .delay 5, .setRST 1, .delay 6]) with
    | .next t => t.rstOut = 0 ∧ t.todo = [.delay 5, .setRST 1, .delay 6]
    | .fault _ => False
    | .refused _ => False) := ⟨rfl, rfl⟩

/-- BS-3: a busy level, a YIELD of 100 and another poll. -/
theorem test_wait_busy : seen (exec (.wait 0) { inRun [good 1] [.poll] with engine := .wait, pollInterval := 100 }) =
    some (2, 0, [.act .poll (.level 1)], [.yield 100, .poll]) := by decide

/-- BS-4: a poll that fails: STATUS 0x204, and it counts. -/
theorem test_wait_fails : ∃ t, exec (.wait 0) { inRun [bad] [.poll] with engine := .wait, polls := 3 } = .next t ∧
    t.polls = 4 ∧ t.statusWord = 0x204 ∧ t.trace = [.act .poll .err] := ⟨_, rfl, by decide⟩

/-- FW-11: FILL is inverted. -/
theorem test_fill : seen (exec (.fill 0xFF 3) { inRun [] [] with invert := 1, expand := 1 }) =
    some (1, 0, [], [.setDC .data, .xfer [0x00, 0x00, 0x00]]) := by decide

/-- FW-13: no repetition, no transaction: SETDC(DATA) completes the op. -/
theorem test_fill_none : seen (exec (.fill 0x66 0) (inRun [good 0] [.setDC .data])) =
    some (1, 1, [.act (.setDC .data) .ok], []) := by decide

/-- FW-4: expansion first, inversion last. -/
theorem test_frame : seen (exec (.frame 0x10 [0xA5]) { inRun [] [] with frameLen := 1, invert := 1, expand := 1 }) =
    some (1, 0, [], [.setDC .cmd, .xfer [0x10], .setDC .data, .xfer [0xCF, 0xCF, 0xFC, 0xFC]]) := by decide

/-- FW-5: the check is against the source length: STATUS 0x404. -/
theorem test_frame_length : seen (exec (.frame 0x10 [0xA5]) { inRun [] [] with frameLen := 4, expand := 1 }) =
    some (0x404, 0, [], []) := by decide

/-- The expansion table of 95_test_vectors.md. -/
theorem test_expand : [0x00, 0xFF, 0xA5, 0x5A, 0x80, 0x01, 0x0F, 0xF0, 0xC3].map expand1 =
    [[0x00, 0x00, 0x00, 0x00], [0x33, 0x33, 0x33, 0x33], [0x30, 0x30, 0x03, 0x03], [0x03, 0x03, 0x30, 0x30],
     [0x30, 0x00, 0x00, 0x00], [0x00, 0x00, 0x00, 0x03], [0x00, 0x00, 0x33, 0x33], [0x33, 0x33, 0x00, 0x00],
     [0x33, 0x00, 0x00, 0x33]] := by decide

/-- SQ-2: STATUS 0x504. -/
theorem test_illegal : seen (step (loaded 32 1)) = some (0x504, 0, [], []) := by decide

/-- SQ-14: STATUS 0x604, ERR_PC and PC 16384. -/
theorem test_overrun : ∃ t, step { State.reset with engine := .run, pc := 16384 } = .next t ∧ t.statusWord = 0x604 ∧
    t.errPc = 16384 ∧ t.pc = 16384 := ⟨_, rfl, by decide⟩

/-- EX-6: both bits of CTRL set: SRESET only. -/
theorem test_bothBits : seen (step (hosted .fault (.write .word 0x000 3))) = some (0, 0, [.sreset], []) := by decide

/-- SQ-17: a host write while running is dropped. -/
theorem test_write_running : (match step (hosted .run (.write .word 0x10000 7)) with
    | .next t => t.mem = []
    | .fault _ => False
    | .refused _ => False) := rfl

/-- A word written while stopped is read back. -/
theorem test_write_read : (match step (hosted .idle (.write .word 0x10004 0x12345678)) with
    | .next t => t.opWord 1 = 0x12345678
    | .fault _ => False
    | .refused _ => False) := rfl

/-! ### Witnesses: for each statement with hypotheses, a state and operands that meet them together, at the boundary
values of its clauses -/

theorem ownTurn (s : State) (h : s.schedule = []) : EngineTurn s s := .inl ⟨h, rfl⟩

theorem hostTurn (e : EngineState) (a : HostAccess) :
    HostTurn (hosted e a) a { State.reset with engine := e } := ⟨[], rfl, rfl⟩

/-- The words of an op, where `encode` lays them out. -/
theorem words_of (i : Instr) (k : Nat) (h : k < (encode i).length) : (encode i).getD k 0 = (encode i)[k] := by
  simp [h]

theorem witness_DecodeOfEncodeIsTheOp :
    (∃ (avail : Nat) (word : Nat → Word), (Instr.data []).wellFormed = true ∧ (encode (.data [])).length ≤ avail ∧
      ∀ k (h : k < (encode (.data [])).length), word k = (encode (.data []))[k]) ∧
    ∃ (avail : Nat) (word : Nat → Word), (Instr.frame 0x10 [1, 2, 3, 4, 5]).wellFormed = true ∧
      (encode (.frame 0x10 [1, 2, 3, 4, 5])).length ≤ avail ∧
      ∀ k (h : k < (encode (.frame 0x10 [1, 2, 3, 4, 5])).length), word k = (encode (.frame 0x10 [1, 2, 3, 4, 5]))[k] :=
  ⟨⟨1, _, by decide, by decide, words_of _⟩, ⟨3, _, by decide, by decide, words_of _⟩⟩

theorem witness_HeaderIsOneRowOrIllegal : ∃ avail : Nat, avail ≠ 0 := ⟨1, by decide⟩

theorem witness_EncodingHasTheOpsSize : ∃ i : Instr, i.wellFormed = true := ⟨.data [], by decide⟩

theorem witness_PayloadIsLittleEndian :
    (∃ word i, decode 2 word = .ok i ∧ i.opcode = .data ∧ 3 < i.payload.length) ∧
    (∃ word i, decode 2 word = .ok i ∧ i.opcode = .cmdData ∧ 0 < i.payload.length) ∧
    ∃ word i, decode 3 word = .ok i ∧ i.opcode = .frame ∧ 4 < i.payload.length :=
  ⟨⟨fun k => [0x30000004, 0x44332211].getD k 0, _, rfl, rfl, by decide⟩,
   ⟨fun k => [0x40100001, 0x00000003].getD k 0, _, rfl, rfl, by decide⟩,
   ⟨fun k => [0x61000005, 0x44332211, 0x55].getD k 0, _, rfl, rfl, by decide⟩⟩

theorem witness_PadBytesAreIgnored : ∃ word word' : Nat → Word, word 0 = word' 0 ∧ headerOpc (word 0) = 3 ∧
    (∀ k < (headerCount (word 0)).toNat, ∀ j < 8,
      (word (1 + k / 4)).getLsbD (8 * (k % 4) + j) = (word' (1 + k / 4)).getLsbD (8 * (k % 4) + j)) ∧
    word 1 ≠ word' 1 :=
  ⟨fun k => [0x30000001, 0x000000AA].getD k 0, fun k => [0x30000001, 0xEEEEEEAA].getD k 0, rfl, rfl, by decide,
    by decide⟩

theorem witness_StepRunsTheDecodedOp :
    (∃ s r i, EngineTurn s r ∧ r.running = true ∧ r.fetch = .ok i) ∧
    ∃ s r i, EngineTurn s r ∧ r.running = true ∧ r.fetch = .ok i ∧ s.schedule ≠ [] :=
  ⟨⟨loaded 32 0x21200000, _, _, ownTurn _ rfl, rfl, rfl⟩,
   ⟨{ loaded 32 0x21200000 with schedule := [.engine] }, _, _, .inr ⟨[], rfl, rfl⟩, rfl, rfl, by decide⟩⟩

theorem witness_StepRunsTheEncodedOp : ∃ s r i, EngineTurn s r ∧ r.running = true ∧ Instr.wellFormed i = true ∧
    r.pc.toNat + (encode i).length ≤ r.params.opmemWords ∧
    ∀ k (h : k < (encode i).length), r.opWord (r.pc.toNat + k) = (encode i)[k] :=
  ⟨loaded 32 0x21200000, _, .cmd 0x12, ownTurn _ rfl, rfl, by decide, by decide, by
    intro k h
    obtain rfl : k = 0 := by simpa [encode, Instr.extension, packBytes, Instr.payload] using h
    rfl⟩

theorem witness_ReservedOpcodeFaults :
    (∃ s r, EngineTurn s r ∧ r.running = true ∧ r.pc.toNat < r.params.opmemWords ∧
      (headerOpc (r.opWord r.pc.toNat)).toNat = 9) ∧
    (∃ s r, EngineTurn s r ∧ r.running = true ∧ r.pc.toNat < r.params.opmemWords ∧
      (headerOpc (r.opWord r.pc.toNat)).toNat = 15) ∧
    ∃ s r, EngineTurn s r ∧ r.running = true ∧ r.pc.toNat < r.params.opmemWords ∧ r.opWord r.pc.toNat = 0 :=
  ⟨⟨loaded 32 0x90000000, _, ownTurn _ rfl, rfl, by decide, rfl⟩,
   ⟨loaded 32 0xF1234567, _, ownTurn _ rfl, rfl, by decide, rfl⟩,
   ⟨loaded 32 0, _, ownTurn _ rfl, rfl, by decide, by decide⟩⟩

theorem witness_MustBeZeroBitFaults : ∃ (s r : State) (o : Opcode), EngineTurn s r ∧ r.running = true ∧
    r.pc.toNat < r.params.opmemWords ∧ headerOpc (r.opWord r.pc.toNat) = o.opc ∧
    r.opWord r.pc.toNat &&& (o.mask &&& 0x0FFFFFFF) ≠ 0 :=
  ⟨loaded 32 0x20000001, _, .cmd, ownTurn _ rfl, rfl, by decide, by decide, by decide⟩

/-- A running engine at the last word of op memory, which holds the header of a DATA of one byte. -/
def atEnd : State := ({ State.reset with engine := .run, pc := 16383 } : State).writeWord 0x1FFFC 0x30000001

theorem witness_OverrunFaults :
    (∃ s r, EngineTurn s r ∧ r.running = true ∧ r.params.opmemWords = r.pc.toNat) ∧
    ∃ (s r : State) (o : Opcode), EngineTurn s r ∧ r.running = true ∧
      r.opWord r.pc.toNat &&& o.mask = o.pattern ∧
      r.params.opmemWords < r.pc.toNat + o.size (headerCount (r.opWord r.pc.toNat)) :=
  ⟨⟨{ State.reset with engine := .run, pc := 16384 }, _, ownTurn _ rfl, rfl, by decide⟩,
   ⟨atEnd, _, .data, ownTurn _ rfl, rfl, by decide, by decide⟩⟩

theorem witness_StartBeginsARun :
    (∃ s r v, HostTurn s (.write .word 0x000 v) r ∧ v.getLsbD 0 = true ∧ v.getLsbD 1 = false ∧ r.running = false) ∧
    ∃ s r v, HostTurn s (.write .word 0x000 v) r ∧ v.getLsbD 0 = true ∧ v.getLsbD 1 = false ∧ r.running = true :=
  ⟨⟨_, _, 1, hostTurn .fault _, by decide, by decide, rfl⟩, ⟨_, _, 1, hostTurn .wait _, by decide, by decide, rfl⟩⟩

theorem witness_StoppedEngineDoesNothing :
    ∃ s r : State, EngineTurn s r ∧ (r.engine = .idle ∨ r.engine = .done ∨ r.engine = .fault) :=
  ⟨State.reset, _, ownTurn _ rfl, .inl rfl⟩

theorem witness_OpsBegin : ∃ (s : State) (p : List Byte), s.todo = [] ∧ p.length = s.frameLen.toNat :=
  ⟨{ State.reset with frameLen := 2 }, [0x0F, 0xF0], rfl, rfl⟩

theorem witness_OpsGoOn :
    (∃ (i : Instr) (s : State) (a : Action), i.wellFormed = true ∧
      i.opcode ∈ [Opcode.reset, .cmd, .data, .cmdData, .fill, .frame] ∧ s.todo = [a] ∧ s.answer a ≠ .err) ∧
    ∃ (i : Instr) (s : State) (a b : Action), i.wellFormed = true ∧
      i.opcode ∈ [Opcode.reset, .cmd, .data, .cmdData, .fill, .frame] ∧ s.todo = [a, b] ∧ s.answer a ≠ .err :=
  ⟨⟨.cmd 0x12, inRun [good 0] [.xfer [0x12]], _, by decide, by decide, rfl, by decide⟩,
   ⟨.cmd 0x12, inRun [good 0] [.setDC .cmd, .xfer [0x12]], _, _, by decide, by decide, rfl, by decide⟩⟩

theorem witness_FailedActionRaisesItsFault :
    (∃ (i : Instr) (s : State) (rest : List Action), i.wellFormed = true ∧ i.opcode = .data ∧
      s.todo = .xfer [0x33] :: rest ∧ s.nextDraw.fails = true) ∧
    ∃ (i : Instr) (s : State), i.wellFormed = true ∧ i.opcode = .wait ∧ s.todo = [.poll] ∧ s.nextDraw.fails = true ∧
      s.polls = 0xFFFFFFFF :=
  ⟨⟨.data [0x33], inRun [bad] [.xfer [0x33]], [], by decide, rfl, rfl, rfl⟩,
   ⟨.wait 0, { inRun [bad] [.poll] with polls := 0xFFFFFFFF }, by decide, rfl, rfl, rfl, rfl⟩⟩

theorem witness_FaultsArePrecise :
    (∃ (i : Instr) (s : State) (k : Nat) (h : k < (opActions s i).length), s.todo = [] ∧ i.wellFormed = true ∧
      (∀ c p, i = .frame c p → p.length = s.frameLen.toNat) ∧
      s.answersOk (askCount ((opActions s i).take k)) ∧ ((opActions s i)[k]).asks = true ∧
      (s.drawAt (askCount ((opActions s i).take k))).fails = true) ∧
    (∃ (s : State) (h : 3 < (opActions s (.frame 0x10 [0x0F])).length), s.todo = [] ∧ (1 : Nat) = s.frameLen.toNat ∧
      s.answersOk (askCount ((opActions s (.frame 0x10 [0x0F])).take 3)) ∧
      ((opActions s (.frame 0x10 [0x0F]))[3]).asks = true ∧
      (s.drawAt (askCount ((opActions s (.frame 0x10 [0x0F])).take 3))).fails = true) ∧
    (∃ s : State, s.todo = [] ∧ (s.drawAt 0).fails = true) ∧
    ∃ s : State, s.todo = [] ∧ (∀ k < 3, (s.drawAt k).fails = false ∧ (s.drawAt k).level ≠ 0) ∧
      (s.drawAt 3).fails = true :=
  ⟨⟨.cmd 0x12, inRun [bad] [], 0, by decide, rfl, by decide, by simp, by decide, by decide, by decide⟩,
   ⟨{ inRun [good 0, good 0, good 0, bad] [] with frameLen := 1 }, by decide, rfl, rfl, by decide, by decide, by decide⟩,
   ⟨inRun [bad] [], rfl, rfl⟩, ⟨inRun [good 1, good 1, good 1, bad] [], rfl, by decide, rfl⟩⟩

theorem noPowerOn_own {s : State} (h : s.schedule = []) : NoPowerOn s := by
  intro rest e
  rw [h] at e
  cases e

theorem noReset_own {s : State} (h : s.schedule = []) : ¬ SoftResetTurn s := by
  rintro ⟨v, rest, e, _⟩
  rw [h] at e
  cases e

theorem witness_PcChangesOnlySo :
    (∃ s t : State, step s = .next t ∧ NoPowerOn s ∧ ¬ SoftResetTurn s ∧ t.pc ≠ s.pc ∧ s.running = true) ∧
    ∃ s t : State, step s = .next t ∧ NoPowerOn s ∧ ¬ SoftResetTurn s ∧ t.pc ≠ s.pc ∧ s.running = false :=
  ⟨⟨loaded 128 0x00000003000000020000000180000007, _, rfl, noPowerOn_own rfl, noReset_own rfl, by decide, rfl⟩,
   ⟨{ hosted .idle (.write .word 0x000 1) with entry := 5 }, _, rfl, by rintro rest ⟨⟩,
    by rintro ⟨v, rest, ⟨⟩, h⟩; exact absurd h (by decide), by decide, rfl⟩⟩

theorem witness_StreamKeepsItsBytes : ∃ (perByte : Bit) (gap : Word) (bytes : List Byte), perByte = 1 ∧ gap ≠ 0 ∧ bytes = [] :=
  ⟨1, 3, [], rfl, by decide, rfl⟩

theorem witness_CmdSendsItsByte : ∃ s : State, s.todo = [] ∧ s.answersOk 2 :=
  ⟨inRun [good 0, good 0] [], rfl, by decide⟩

theorem witness_DataSendsItsPayload : ∃ (s : State) (p : List Byte), s.todo = [] ∧ s.perByte = 1 ∧ s.byteGap = 3 ∧
    p = [0x11, 0x22] ∧ s.answersOk (askCount (.setDC .data :: wireActions s.perByte s.byteGap p)) :=
  ⟨{ inRun [good 0, good 0, good 0] [] with perByte := 1, byteGap := 3 }, _, rfl, rfl, rfl, rfl, by decide⟩

theorem witness_CmdDataSendsBoth : ∃ (s : State) (p : List Byte), s.todo = [] ∧ p = [0x03, 0x00] ∧
    s.answersOk (askCount ([Action.setDC .cmd, .xfer [0x01], .setDC .data] ++ wireActions s.perByte s.byteGap p)) :=
  ⟨inRun [good 0, good 0, good 0, good 0] [], _, rfl, rfl, by decide⟩

theorem witness_FillRepeatsItsByte : ∃ (s : State) (n : BitVec 20), s.todo = [] ∧ n = 3 ∧ s.invert = 1 ∧
    s.answersOk (askCount (.setDC .data :: wireActions s.perByte s.byteGap
      (List.replicate n.toNat (if s.invert = 1 then 0xFF ^^^ 0xFF else 0xFF)))) :=
  ⟨{ inRun [good 0, good 0] [] with invert := 1 }, _, rfl, rfl, rfl, by decide⟩

theorem witness_FrameSendsItsBuffer : ∃ (s : State) (p : List Byte), s.todo = [] ∧ p.length = s.frameLen.toNat ∧
    s.expand = 1 ∧ s.answersOk (askCount ([Action.setDC .cmd, .xfer [0x10], .setDC .data] ++
      wireActions s.perByte s.byteGap (transform s.invert s.expand p))) :=
  ⟨{ inRun [good 0, good 0, good 0, good 0] [] with frameLen := 1, expand := 1 }, [0xA5], rfl, rfl, rfl, by decide⟩

theorem witness_BusOpsFrame : ∃ (i : Instr) (s t : State),
    i.opcode ∈ [Opcode.cmd, .data, .cmdData, .fill, .frame] ∧ i.wellFormed = true ∧ s.inOp i ∧ exec i s = .next t ∧
    s.todo ≠ [] :=
  ⟨.cmd 0x12, inRun [good 0] [.xfer [0x12]], _, by decide, by decide, ⟨[.setDC .cmd], rfl⟩, rfl, by decide⟩

theorem witness_ResetPulsesTheLine :
    (∃ s : State, s.todo = [] ∧ s.answersOk 2) ∧ (∃ s : State, s.todo = [] ∧ (s.drawAt 0).fails = true) ∧
    ∃ s : State, s.todo = [] ∧ (s.drawAt 0).fails = false ∧ (s.drawAt 1).fails = true :=
  ⟨⟨inRun [good 0, good 0] [], rfl, by decide⟩, ⟨inRun [bad] [], rfl, rfl⟩, ⟨inRun [good 0, bad] [], rfl, rfl, rfl⟩⟩

theorem witness_ResetFrame : ∃ s t : State, s.inOp (.reset 5 6) ∧ exec (.reset 5 6) s = .next t ∧ s.todo ≠ [] :=
  ⟨inRun [good 0] [.setRST 1, .delay 6], _, ⟨[.setRST 0, .delay 5], rfl⟩, rfl, by decide⟩

theorem witness_WaitPolls :
    (∃ (s : State) (idle : Bit), s.todo = [.poll] ∧ s.nextDraw.fails = false ∧ s.nextDraw.level = idle ∧
      s.polls = 0xFFFFFFFF) ∧
    (∃ (s : State) (idle : Bit), s.todo = [.poll] ∧ s.nextDraw.fails = false ∧ s.nextDraw.level ≠ idle) ∧
    ∃ (s : State) (d : Word), s.todo = [.yield d, .poll] :=
  ⟨⟨{ inRun [good 1] [.poll] with polls := 0xFFFFFFFF }, 1, rfl, rfl, rfl, rfl⟩,
   ⟨inRun [good 1] [.poll], 0, rfl, rfl, by decide⟩, ⟨inRun [] [.yield 0, .poll], 0, rfl⟩⟩

theorem witness_WaitTakesOnePollMore :
    (∃ s : State, s.todo = [] ∧ (s.drawAt 0).fails = false ∧ (s.drawAt 0).level = 1) ∧
    ∃ s : State, s.todo = [] ∧ (∀ k ≤ 3, (s.drawAt k).fails = false) ∧ (∀ k < 3, (s.drawAt k).level ≠ 0) ∧
      (s.drawAt 3).level = 0 :=
  ⟨⟨inRun [good 1] [], rfl, rfl, rfl⟩, ⟨inRun [good 1, good 1, good 1, good 0] [], rfl, by decide, by decide, rfl⟩⟩

theorem witness_WaitHasNoTimeout : ∃ (s : State) (m : Nat), s.todo = [] ∧
    (∀ k < 3, (s.drawAt k).fails = false ∧ (s.drawAt k).level ≠ 1) ∧ 1 ≤ m ∧ m = 2 * 3 + 1 :=
  ⟨inRun [good 0, good 0, good 0] [], 7, rfl, by decide, by decide, rfl⟩

theorem witness_WaitFrame :
    (∃ s t : State, s.todo = [] ∧ exec (.wait 1) s = .next t) ∧
    (∃ s t : State, s.todo = [.poll] ∧ exec (.wait 1) s = .next t) ∧
    ∃ s t : State, s.todo = [.yield 5, .poll] ∧ exec (.wait 1) s = .next t :=
  ⟨⟨inRun [] [], _, rfl, rfl⟩, ⟨inRun [good 1] [.poll], _, rfl, rfl⟩, ⟨inRun [] [.yield 5, .poll], _, rfl, rfl⟩⟩

theorem witness_ExpansionLaysOutSymbols : ∃ (p : List Byte) (k j : Nat), k < p.length ∧ j < 4 ∧ j = 3 :=
  ⟨[0xA5], 0, 3, by decide, by decide, rfl⟩

theorem witness_FrameLengthMismatchFailsClosed :
    ∃ (s : State) (p : List Byte), s.todo = [] ∧ p.length ≠ s.frameLen.toNat :=
  ⟨{ State.reset with frameLen := 2 }, [1, 2, 3], rfl, by decide⟩

theorem witness_ClearAndFrameLeaveTheSameTrace : ∃ (s : State) (p : List Byte) (n : BitVec 20), n = 4 ∧
    p = List.replicate n.toNat 0x00 ∧ s.expand = 0 ∧ s.invert = 1 ∧
    transform s.invert s.expand p = List.replicate n.toNat (if s.invert = 1 then 0x00 ^^^ 0xFF else 0x00) ∧
    s.todo = [] ∧ p.length = s.frameLen.toNat ∧ s.answersOk (askCount (opActions s (.frame 0x10 p))) :=
  ⟨{ inRun [good 0, good 0, good 0, good 0] [] with frameLen := 4, invert := 1 }, _, _, rfl, rfl, rfl, rfl,
    by decide, rfl, rfl, by decide⟩

theorem witness_HostReadsTheWindow :
    (∃ s r, HostTurn s (.read .word 0x000) r) ∧ (∃ s r, HostTurn s (.read .word 0x024) r) ∧
    ∃ s r, HostTurn s (.read .word 0x028) r :=
  ⟨⟨_, _, hostTurn .idle _⟩, ⟨_, _, hostTurn .run _⟩, ⟨_, _, hostTurn .fault _⟩⟩

theorem witness_HostReadsHaveNoSideEffect : ∃ s r t, HostTurn s (.read .word 0x028) r ∧ step s = .next t :=
  ⟨_, _, _, hostTurn .wait _, rfl⟩

theorem witness_ReservedOffsets :
    (∃ s r, 0x02C % 4 = 0 ∧ HostTurn s (.read .word 0x02C) r) ∧
    (∃ s r v, HostTurn s (.write .word 0x004 v) r) ∧
    ∃ (s r : State) (v : Word), 0x1FFFC < 0x20000 ∧ 0x10000 + 4 * r.params.opmemWords ≤ 0x1FFFC ∧
      HostTurn s (.write .word 0x1FFFC v) r :=
  ⟨⟨_, _, by decide, hostTurn .idle _⟩, ⟨_, _, 7, hostTurn .idle _⟩,
   ⟨{ hosted .idle (.write .word 0x1FFFC 7) with params := ⟨16383, 0, 2⟩ }, _, 7, by decide, by decide,
    ⟨[], rfl, rfl⟩⟩⟩

theorem witness_EntryIsWritten : ∃ s r v, HostTurn s (.write .word 0x00C v) r := ⟨_, _, 7, hostTurn .run _⟩

theorem witness_OpMemoryAccess :
    (∃ s r v, HostTurn s (.write .word (0x10000 + 4 * 0) v) r ∧ r.running = true) ∧
    (∃ (s r : State) (v : Word), 16383 < r.params.opmemWords ∧ r.params.opmemWords ≤ 16384 ∧
      HostTurn s (.write .word (0x10000 + 4 * 16383) v) r ∧ r.running = false) ∧
    ∃ s r, HostTurn s (.read .word (0x10000 + 4 * 0)) r :=
  ⟨⟨_, _, 7, hostTurn .wait _, rfl⟩, ⟨_, _, 7, by decide, by decide, hostTurn .done _, rfl⟩, ⟨_, _, hostTurn .run _⟩⟩

theorem witness_UnsupportedAccessesStop :
    (∃ s a r v, HostTurn s a r ∧ a = .write .byte 0x20000 v) ∧ (∃ s a r, HostTurn s a r ∧ a = .read .half 0x1FFFF) ∧
    ∃ s a r, HostTurn s a r ∧ a = .read .word 0x1FFFE :=
  ⟨⟨_, _, _, 0, hostTurn .idle _, rfl⟩, ⟨_, _, _, hostTurn .idle _, rfl⟩, ⟨_, _, _, hostTurn .idle _, rfl⟩⟩

theorem witness_SoftResetResets :
    (∃ s r v, HostTurn s (.write .word 0x000 v) r ∧ v.getLsbD 1 = true ∧ v.getLsbD 0 = true) ∧
    ∃ s r v, HostTurn s (.write .word 0x000 v) r ∧ v.getLsbD 1 = false ∧ v.getLsbD 0 = false :=
  ⟨⟨_, _, 3, hostTurn .wait _, by decide, by decide⟩, ⟨_, _, 4, hostTurn .idle _, by decide, by decide⟩⟩

theorem witness_PowerOnResets : ∃ (s : State) (rest : List Turn), s.schedule = .powerOn :: rest :=
  ⟨{ State.reset with schedule := [.powerOn] }, [], rfl⟩

/-- A state before the host's START. -/
theorem witness_EveryStepKeepsTheInvariant :
    ∃ s t : State, Inv s ∧ step s = .next t ∧ s.schedule = [.host (.write .word 0x000 1)] :=
  ⟨hosted .idle (.write .word 0x000 1), _,
    { params := by decide, memory := reset_wf, code := by simp [hosted, State.reset], supported := by decide,
      faultPc := (by intro h; cases h), clearPc := fun _ => rfl, stopped := fun _ => rfl,
      waiting := (by intro h; cases h), working := (by intro h; cases h), pcRange := .inl (by decide),
      transfers := by simp [hosted, State.reset, noEmptyTransfer] },
    rfl, rfl⟩

theorem witness_OneEventPerStep :
    (∃ s t : State, step s = .next t ∧ NoPowerOn s ∧ t.trace ≠ s.trace ∧ s.running = true) ∧
    ∃ s t : State, step s = .next t ∧ NoPowerOn s ∧ SoftResetTurn s ∧ t.trace ≠ s.trace :=
  ⟨⟨{ loaded 32 0x21200000 with todo := [.xfer [0x12]], script := [good 0] }, _, rfl, noPowerOn_own rfl, by decide, rfl⟩,
   ⟨hosted .run (.write .word 0x000 2), _, rfl, by rintro rest ⟨⟩, ⟨2, [], rfl, by decide⟩, by decide⟩⟩

theorem witness_OnlyOpsDriveTheLines : ∃ s t : State, step s = .next t ∧ NoPowerOn s ∧ ¬ SoftResetTurn s ∧
    t.dcValid ≠ s.dcValid :=
  ⟨{ loaded 32 0x21200000 with todo := [.setDC .cmd, .xfer [0x12]], script := [good 0] }, _, rfl, noPowerOn_own rfl,
    noReset_own rfl, by decide⟩

theorem witness_OnlySetcfgConfigures : ∃ s t : State, step s = .next t ∧ NoPowerOn s ∧ ¬ SoftResetTurn s ∧
    (∀ r a b c l p g, EngineTurn s r → r.running = true → r.fetch ≠ .ok (.setcfg a b c l p g)) ∧ s.running = true :=
  ⟨loaded 32 0x21200000, _, rfl, noPowerOn_own rfl, noReset_own rfl, (by
    rintro r a b c l p g (⟨_, rfl⟩ | ⟨_, ⟨⟩, _⟩) _ h
    have e : (loaded 32 0x21200000).fetch = .ok (.cmd 0x12) := rfl
    rw [e] at h
    cases h), rfl⟩

theorem witness_OpMemoryIsFixedWhileRunning :
    (∃ s t : State, step s = .next t ∧ NoPowerOn s ∧ s.running = true ∧
      ∃ v, s.schedule = [.host (.write .word 0x10000 v)]) ∧
    ∃ s t r : State, step s = .next t ∧ NoPowerOn s ∧ EngineTurn s r ∧ s.running = false :=
  ⟨⟨hosted .run (.write .word 0x10000 7), _, rfl, by rintro rest ⟨⟩, rfl, 7, rfl⟩,
   ⟨State.reset, _, _, rfl, noPowerOn_own rfl, ownTurn _ rfl, rfl⟩⟩

theorem witness_FaultIsSticky : ∃ s t : State, s.engine = .fault ∧ step s = .next t ∧ NoPowerOn s ∧
    (∀ v rest, s.schedule = .host (.write .word 0x000 v) :: rest → v.getLsbD 0 = false ∧ v.getLsbD 1 = false) ∧
    s.schedule ≠ [] :=
  ⟨hosted .fault (.write .word 0x000 4), _, rfl, rfl, by rintro rest ⟨⟩, by rintro v rest ⟨⟩; decide, by decide⟩

theorem witness_OnlySoftResetEndsARun : ∃ s r t a, s.running = true ∧ HostTurn s a r ∧ step s = .next t ∧
    ¬ SoftResetTurn s ∧ a = .write .word 0x000 1 :=
  ⟨hosted .wait (.write .word 0x000 1), _, _, _, rfl, hostTurn .wait _, rfl,
    by rintro ⟨v, rest, ⟨⟩, h⟩; exact absurd h (by decide), rfl⟩

theorem witness_OpRunIsARunOfTheMachine : ∃ (i : Instr) (s : State), s.schedule = [] ∧ s.running = true ∧
    s.fetch = .ok i ∧ s.todo = [] ∧ ∀ k t, 0 < k → k < 3 → opRun k i s = .next t → t.todo ≠ [] :=
  ⟨.cmd 0x12, { loaded 32 0x21200000 with script := [good 0, good 0] }, rfl, rfl, rfl, rfl, by
    intro k t h1 h2
    obtain rfl | rfl : k = 1 ∨ k = 2 := by omega
    · rintro ⟨⟩; decide
    · rintro ⟨⟩; decide⟩

/-- The two states differ in TRACE. -/
theorem witness_RunsAreDetermined : ∃ s t s' : State, SameRun s t ∧ s.schedule = [] ∧ t.schedule = [] ∧
    steps 3 s = .next s' ∧ s.trace ≠ t.trace :=
  ⟨{ loaded 32 0x21200000 with script := [good 0, good 0] },
   { loaded 32 0x21200000 with script := [good 0, good 0], trace := [.sreset] }, _,
    by constructor <;> first | rfl | exact fun _ => rfl, rfl, rfl, rfl, by decide⟩

theorem witness_OnlyWaitCanHang :
    ∃ (i : Instr) (s : State), s.todo = [] ∧ i.wellFormed = true ∧ ∀ idle, i ≠ .wait idle :=
  ⟨.frame 0x10 [0xA5], State.reset, rfl, by decide, by simp⟩

end Sys2Proof.Tests
end

section
/-! PROOFS. The invariant of the machine (Safety.lean): what each shared operation needs to keep it, that every step of
the engine and every access of the host keeps it, and that it holds after reset. -/

namespace Sys2Proof.Machine

/-! ### What `Inv` reads -/

/-- `t` agrees with `s` on everything the invariant reads, but for TRACE. -/
structure SameForInv (s t : State) : Prop where
  params : t.params = s.params
  engine : t.engine = s.engine
  pc : t.pc = s.pc
  errCode : t.errCode = s.errCode
  errPc : t.errPc = s.errPc
  perByte : t.perByte = s.perByte
  invert : t.invert = s.invert
  expand : t.expand = s.expand
  pollInterval : t.pollInterval = s.pollInterval
  byteGap : t.byteGap = s.byteGap
  todo : t.todo = s.todo
  mem : t.mem = s.mem
  powerOns : t.powerOns = s.powerOns

theorem fetch_eq_of_same {s t : State} (hp : t.params = s.params) (hc : t.pc = s.pc) (hm : t.mem = s.mem)
    (ho : t.powerOns = s.powerOns) : t.fetch = s.fetch :=
  fetch_congr hp hc (byteAt_congr hm ho)

@[simp] theorem fetch_perform (s : State) (a : Action) : (s.perform a).fetch = s.fetch := by
  apply fetch_eq_of_same <;> simp

@[simp] theorem opActions_perform (s : State) (a : Action) (i : Instr) : opActions (s.perform a) i = opActions s i := by
  apply opActions_congr <;> simp

theorem running_congr {s t : State} (h : t.engine = s.engine) : t.running = s.running := by
  simp only [State.running, h]

/-- The invariant carries over to a state that agrees on all it reads and whose TRACE has no empty transaction. -/
theorem Inv.congr {s t : State} (h : Inv s) (same : SameForInv s t) (ht : noEmptyTransfer t.trace) : Inv t := by
  obtain ⟨params, engine, pc, errCode, errPc, perByte, invert, expand, pollInterval, byteGap, todo, mem, powerOns⟩ :=
    same
  have fetch : t.fetch = s.fetch := fetch_eq_of_same params pc mem powerOns
  have acts : ∀ i, opActions t i = opActions s i := fun i => opActions_congr i perByte byteGap invert expand
  constructor
  case params => rw [params]; exact h.params
  case memory => rw [mem, params]; exact h.memory
  case code => rw [engine, errCode]; exact h.code
  case supported => rw [errCode]; exact h.supported
  case faultPc => rw [engine, errPc, pc]; exact h.faultPc
  case clearPc => rw [engine, errPc]; exact h.clearPc
  case stopped => rw [running_congr engine, todo]; exact h.stopped
  case waiting => rw [engine, fetch, todo, pollInterval]; exact h.waiting
  case working => simp only [State.inOp, engine, todo, fetch, acts]; exact h.working
  case pcRange => rw [pc, params, engine, todo, errCode]; exact h.pcRange
  case transfers => exact ht

theorem noEmptyTransfer_nil : noEmptyTransfer [] := by simp [noEmptyTransfer]

theorem noEmptyTransfer_concat {events : List Event} {e : Event} (h : noEmptyTransfer events)
    (he : ∀ r, e ≠ .act (.xfer []) r) : noEmptyTransfer (events ++ [e]) := by
  intro r mem
  rcases List.mem_append.mp mem with old | new
  · exact h r old
  · exact he r (List.mem_singleton.mp new).symm

/-- Outside FAULT, ERR_CODE is NONE. -/
theorem Inv.errCode_eq_none {s : State} (h : Inv s) (run : s.engine ≠ .fault) : s.errCode = .none :=
  not_not.mp (mt h.code.mpr run)

theorem ne_fault_of_running {s : State} (h : s.running = true) : s.engine ≠ .fault := by
  rcases running_iff.mp h with e | e <;> simp [e]

/-- The invariant of a state outside FAULT with no op in progress. -/
theorem inv_of_todo_nil {s : State} (params : s.params.valid) (memory : s.mem.wf s.params.opmemWords)
    (fault : s.engine ≠ .fault) (wait : s.engine ≠ .wait) (errCode : s.errCode = .none) (errPc : s.errPc = 0)
    (todo : s.todo = []) (range : s.pc.toNat ≤ s.params.opmemWords ∨ s.engine = .run)
    (transfers : noEmptyTransfer s.trace) : Inv s where
  params := params
  memory := memory
  code := by simp [fault, errCode]
  supported := by simp [errCode]
  faultPc e := absurd e fault
  clearPc _ := errPc
  stopped _ := todo
  waiting e := absurd e wait
  working _ ne := absurd todo ne
  pcRange := range.imp_right fun run => .inl ⟨run, todo⟩
  transfers := transfers

/-! ### The shared operations -/

/-- An action that is no empty transaction keeps the invariant, the hidden progress staying as it is. -/
theorem Inv.perform {s : State} {a : Action} (h : Inv s) (ha : a ≠ .xfer []) : Inv (s.perform a) := by
  refine h.congr (by constructor <;> simp) ?_
  rw [State.perform_trace]
  exact noEmptyTransfer_concat h.transfers (by simp [ha])

/-- Fault entry keeps the invariant (R259): PC is in range, or the fault is the one a PC out of range raises. -/
theorem Inv.raise {s : State} {c : ErrCode} (h : Inv s) (some : c ≠ .none) (supported : c ≠ .unsupported)
    (range : s.pc.toNat ≤ s.params.opmemWords ∨ c = .streamOverrun) : Inv (s.raise c) where
  params := h.params
  memory := h.memory
  code := by simp [some]
  supported := supported
  faultPc _ := rfl
  clearPc e := absurd rfl e
  stopped _ := rfl
  waiting := by simp
  working := by simp
  pcRange := range.imp_right fun e => .inr ⟨rfl, e⟩
  transfers := h.transfers

/-- A decode fault keeps the invariant: a PC past the end raises STREAM_OVERRUN (R111, R144). -/
theorem Inv.raise_decodeFault {s : State} {e : DecodeError} (h : Inv s) (he : s.fetch = .error e) :
    Inv (s.raise (decodeFault e)) := by
  refine h.raise (by cases e <;> simp [decodeFault]) (by cases e <;> simp [decodeFault]) ?_
  by_cases past : s.pc.toNat ≤ s.params.opmemWords
  · exact .inl past
  · have none : s.wordsLeft = 0 := by simp only [State.wordsLeft]; omega
    rw [State.fetch, none, decode_headerPastEnd] at he
    cases he
    exact .inr rfl

/-- PC after an op that lies inside the op memory, with no wrap-around. -/
theorem Inv.toNat_pc_add {s : State} {n : Nat} (h : Inv s) (fits : s.pc.toNat + n ≤ s.params.opmemWords) :
    (s.pc + BitVec.ofNat 32 n).toNat = s.pc.toNat + n := by
  obtain ⟨-, small, -⟩ := h.params
  rw [BitVec.toNat_add, BitVec.toNat_ofNat]
  omega

/-- Where an op is decoded, PC lies inside the op memory. -/
theorem pc_le_of_fetch {s : State} {i : Instr} (hf : s.fetch = .ok i) : s.pc.toNat ≤ s.params.opmemWords :=
  (Nat.le_add_right _ _).trans (fetch_fits hf)

/-- Stage 3 of an op that lies inside the op memory keeps the invariant (R141). -/
theorem Inv.complete {s : State} {n : Nat} (h : Inv s) (run : s.engine ≠ .fault)
    (fits : s.pc.toNat + n ≤ s.params.opmemWords) : Inv (s.complete n) :=
  inv_of_todo_nil h.params h.memory (by simp) (by simp) (h.errCode_eq_none run) (h.clearPc run) rfl
    (.inl (by rw [State.complete_pc, h.toNat_pc_add fits]; exact fits)) h.transfers

/-- In RUN, the invariant lets the hidden progress be any rest of the actions of the op at PC, if that is no WAIT. -/
theorem Inv.withTodo_run {s : State} {i : Instr} {rest : List Action} (h : Inv s) (run : s.engine = .run)
    (hf : s.fetch = .ok i) (hw : ∀ idle, i ≠ .wait idle) (hs : rest <:+ opActions s i) :
    Inv { s with todo := rest } where
  params := h.params
  memory := h.memory
  code := h.code
  supported := h.supported
  faultPc := h.faultPc
  clearPc := h.clearPc
  stopped stop := by simp [State.running, run] at stop
  waiting wait := by simp [run] at wait
  working _ _ := ⟨i, hf, hw, hs⟩
  pcRange := .inl (pc_le_of_fetch hf)
  transfers := h.transfers

/-- While a WAIT is at PC, the invariant lets STATE be WAIT before a POLL and before a YIELD (R203). -/
theorem Inv.withTodo_wait {s : State} {idle : Bit} {rest : List Action} (h : Inv s) (run : s.running = true)
    (hf : s.fetch = .ok (.wait idle)) (hr : rest = [.poll] ∨ rest = [.yield s.pollInterval, .poll]) :
    Inv { s with engine := .wait, todo := rest } where
  params := h.params
  memory := h.memory
  code := by simp [h.errCode_eq_none (ne_fault_of_running run)]
  supported := h.supported
  faultPc := by simp
  clearPc _ := h.clearPc (ne_fault_of_running run)
  stopped := by simp [State.running]
  waiting _ := ⟨⟨idle, hf⟩, hr⟩
  working := by simp
  pcRange := .inl (pc_le_of_fetch hf)
  transfers := h.transfers

/-- After an action of an op in RUN, going on with a rest of its actions or completing keeps the invariant. -/
theorem Inv.proceed_run {s : State} {i : Instr} {rest : List Action} (h : Inv s) (run : s.engine = .run)
    (hf : s.fetch = .ok i) (hw : ∀ idle, i ≠ .wait idle) (hs : rest <:+ opActions s i) :
    Inv (s.proceed i.size rest) := by
  cases rest with
  | nil => exact h.complete (by simp [run]) (fetch_fits hf)
  | cons a rest => exact h.withTodo_run run hf hw hs

/-- After an action of a WAIT, going on with its next actions or completing keeps the invariant. -/
theorem Inv.proceed_wait {s : State} {idle : Bit} {rest : List Action} (h : Inv s) (wait : s.engine = .wait)
    (hf : s.fetch = .ok (.wait idle))
    (hr : rest = [] ∨ rest = [.poll] ∨ rest = [.yield s.pollInterval, .poll]) : Inv (s.proceed 1 rest) := by
  rcases hr with rfl | hr
  · exact h.complete (by simp [wait]) (fetch_fits hf)
  · have goOn := h.withTodo_wait (running_iff.mpr (.inr wait)) hf hr
    rw [← wait] at goOn
    rcases hr with rfl | rfl <;> exact goOn

/-- One step of an op at an action keeps the invariant where what follows a success does (R141). -/
theorem Inv.actStep {s : State} {n : Nat} {a : Action} {rest : List Action} (h : Inv s) (ha : a ≠ .xfer [])
    (range : s.pc.toNat ≤ s.params.opmemWords)
    (next : s.answer a ≠ .err → Inv ((s.perform a).proceed n rest)) : Inv (s.actStep n a rest) := by
  by_cases err : s.answer a = .err
  · rw [actStep_of_err n rest err]
    exact (h.perform ha).raise (by cases a <;> simp [Action.failCode]) (by cases a <;> simp [Action.failCode])
      (.inl (by simpa using range))
  · rw [actStep_of_ok n rest err]
    exact next err

/-- What a WAIT goes on with after a successful action: nothing, a POLL, or a YIELD and a POLL (R203). -/
theorem waitRest_cases {s : State} {idle : Bit} {a : Action} {rest : List Action}
    (h : a :: rest = [.poll] ∨ a :: rest = [.yield s.pollInterval, .poll]) (ok : s.answer a ≠ .err) :
    let next := waitRest idle s.pollInterval rest (s.answer a)
    next = [] ∨ next = [.poll] ∨ next = [.yield s.pollInterval, .poll] := by
  rcases h with e | e
  · cases e
    have level := answer_poll (s := s) (by simpa [answer_eq_err, Action.asks] using ok)
    by_cases reached : s.nextDraw.level = idle <;> simp [level, waitRest, reached]
  · cases e
    simp [State.answer, waitRest]

/-! ### Every step -/

/-- One engine step of the decoded op keeps the invariant. -/
theorem Inv.exec {s t : State} {i : Instr} (h : Inv s) (run : s.running = true) (hf : s.fetch = .ok i)
    (ht : exec i s = .next t) : Inv t := by
  have fits := fetch_fits hf
  have range := pc_le_of_fetch hf
  have fault := ne_fault_of_running run
  have engine_run : (∀ idle, i ≠ .wait idle) → s.engine = .run := by
    intro hw
    refine (running_iff.mp run).resolve_right fun wait => ?_
    obtain ⟨⟨idle, e⟩, -⟩ := h.waiting wait
    exact hw idle (Except.ok.inj (hf.symm.trans e))
  cases exec_cases (fetch_wellFormed hf) ht with
  | stops =>
    exact inv_of_todo_nil h.params h.memory (by simp) (by simp) (h.errCode_eq_none fault) (h.clearPc fault) rfl
      (.inl range) h.transfers
  | configures a b c l p g hi =>
    subst hi
    refine inv_of_todo_nil h.params h.memory (by simp) (by simp) (h.errCode_eq_none fault) (h.clearPc fault) rfl
      (.inl ?_) h.transfers
    exact (h.toNat_pc_add (n := 4) fits).trans_le fits
  | begins todo hw _ _ =>
    exact h.withTodo_run (engine_run hw) hf hw (List.suffix_refl _)
  | waits idle todo hi =>
    subst hi
    exact (h.withTodo_wait run hf (.inl rfl)).congr (by constructor <;> rfl) h.transfers
  | rejects => exact h.raise (by simp) (by simp) (.inl range)
  | acts a rest todo _ hw _ =>
    have run := engine_run hw
    obtain ⟨j, hj, -, hs⟩ := h.working run (by simp [todo])
    obtain rfl : i = j := Except.ok.inj (hf.symm.trans hj)
    rw [State.inOp, todo] at hs
    have ha : a ≠ .xfer [] := (mem_opActions (hs.mem List.mem_cons_self)).1
    refine h.actStep ha range fun _ => (h.perform ha).proceed_run (by simpa using run) (by simpa using hf) hw ?_
    rw [opActions_perform]
    exact (List.suffix_cons a rest).trans hs
  | polls idle a rest todo hi =>
    subst hi
    have wait : s.engine = .wait := by
      refine (running_iff.mp run).resolve_left fun run => ?_
      obtain ⟨j, hj, hw, -⟩ := h.working run (by simp [todo])
      exact hw idle (Except.ok.inj (hj.symm.trans hf))
    obtain ⟨-, pending⟩ := h.waiting wait
    rw [todo] at pending
    have ha : a ≠ .xfer [] := by rintro rfl; simp at pending
    refine h.actStep ha range fun ok => (h.perform ha).proceed_wait (by simpa using wait) (by simpa using hf) ?_
    simpa using waitRest_cases pending ok

/-- A step of the engine keeps the invariant. -/
theorem Inv.engineStep {s t : State} (h : Inv s) (ht : engineStep s = .next t) : Inv t := by
  rcases engineStep_cases ht with ⟨run, i, hf, ht⟩ | ⟨-, e, he, rfl⟩ | ⟨-, rfl⟩
  · exact h.exec run hf ht
  · exact h.raise_decodeFault he
  · exact h

/-- START of a stopped engine keeps the invariant, wherever ENTRY points (R140, R144). -/
theorem Inv.start {s : State} (h : Inv s) (stop : s.running = false) : Inv s.start := by
  have e : s.start = { s with pc := s.entry, errCode := .none, errPc := 0, polls := 0, engine := .run } := by
    simp [State.start, stop]
  rw [e]
  exact inv_of_todo_nil h.params h.memory (by simp) (by simp) rfl rfl (h.stopped stop) (.inr rfl) h.transfers

/-- A word of op memory stored while the engine is stopped keeps the invariant: no op is in progress. -/
theorem Inv.writeWord {s : State} {a : Nat} {w : Word} (h : Inv s) (stop : s.running = false)
    (memory : (s.writeWord a w).mem.wf s.params.opmemWords) : Inv (s.writeWord a w) where
  params := h.params
  memory := memory
  code := h.code
  supported := h.supported
  faultPc := h.faultPc
  clearPc := h.clearPc
  stopped := h.stopped
  waiting wait := by simp [running_iff (s := s).mpr (.inr wait)] at stop
  working run := by simp [running_iff (s := s).mpr (.inl run)] at stop
  pcRange := h.pcRange
  transfers := h.transfers

/-- An SRESET keeps the invariant (R291): its marker is no transaction. -/
theorem Inv.softReset {s : State} (h : Inv s) : Inv s.softReset :=
  inv_of_todo_nil h.params h.memory (by simp [State.softReset]) (by simp [State.softReset]) rfl rfl rfl
    (.inl (Nat.zero_le _)) (noEmptyTransfer_concat h.transfers (by simp))

/-- A power-on reset gives the invariant from valid parameters alone (R291). -/
theorem inv_powerOn {s : State} (params : s.params.valid) : Inv s.powerOn :=
  inv_of_todo_nil params ⟨List.Pairwise.nil, by simp [State.powerOn]⟩ (by simp [State.powerOn])
    (by simp [State.powerOn]) rfl rfl rfl (.inl (Nat.zero_le _)) noEmptyTransfer_nil

/-- An access of the host keeps the invariant. -/
theorem Inv.hostAccess {a : HostAccess} {s t : State} (h : Inv s) (ht : hostAccess a s = .next t) : Inv t := by
  have memory := hostAccess_wf ht h.memory
  rcases hostAccess_cases ht with ⟨w, o, -, rfl⟩ | ⟨v, -, -, rfl⟩ | ⟨v, -, -, -, stop, rfl⟩ | ⟨v, -, rfl⟩ |
    ⟨o, v, -, -, -, stop, rfl⟩ | rfl
  · exact h.congr (by constructor <;> simp) (by simpa using h.transfers)
  · exact h.softReset
  · exact h.start stop
  · exact h.congr (by constructor <;> rfl) h.transfers
  · exact h.writeWord stop memory
  · exact h

/-- The invariant does not read the schedule. -/
theorem Inv.withSchedule {s : State} (h : Inv s) (turns : List Turn) : Inv { s with schedule := turns } :=
  h.congr (by constructor <;> rfl) h.transfers

/-- Settles O51: each turn keeps the invariant, which does not read the schedule. -/
theorem everyStepKeepsTheInvariant : Obligations.EveryStepKeepsTheInvariant := by
  intro s t h ht
  rcases step_cases ht with ⟨r, turn, ht⟩ | ⟨a, r, turn, ht⟩ | ⟨rest, -, rfl⟩
  · rw [engineTurn_same turn] at ht
    exact (h.withSchedule _).engineStep ht
  · rw [hostTurn_same turn] at ht
    exact (h.withSchedule _).hostAccess ht
  · exact inv_powerOn h.params

/-- Settles O50: the reset state is stopped, with PC, TRACE and op memory empty. -/
theorem resetMeetsTheInvariant : Obligations.ResetMeetsTheInvariant :=
  inv_of_todo_nil (by decide) reset_wf (by decide) (by decide) rfl rfl rfl (.inl (Nat.zero_le _)) noEmptyTransfer_nil

end Sys2Proof.Machine
end

section
/-! PROOFS. The host's side of 10_state.md: what an aligned access of the register window reads and writes, the layout
of the status words, SRESET and the state after reset, and which steps write the configuration. -/

namespace Sys2Proof.Machine

/-! ### Aligned 32-bit accesses in the host's turn -/

/-- An aligned 32-bit read inside the address space is performed (R70, R73). -/
theorem step_read {s r : State} {o : Nat} (turn : HostTurn s (.read .word o) r) (space : o < Config.hostSpace)
    (aligned : o % 4 = 0) : step s = .next (r.hostRead o) := by
  rw [step_hostTurn turn]
  exact checkAccess_next.mpr ⟨space, rfl, aligned, rfl⟩

/-- An aligned 32-bit write inside the address space is performed (R70, R73). -/
theorem step_write {s r : State} {o : Nat} {v : Word} (turn : HostTurn s (.write .word o v) r)
    (space : o < Config.hostSpace) (aligned : o % 4 = 0) : step s = .next (r.hostWrite o v) := by
  rw [step_hostTurn turn]
  exact checkAccess_next.mpr ⟨space, rfl, aligned, rfl⟩

theorem inOpMemory_eq_false {s : State} {o : Nat}
    (h : o < Config.opmemBase ∨ Config.opmemBase + 4 * s.params.opmemWords ≤ o) : s.inOpMemory o = false := by
  simp only [State.inOpMemory, decide_eq_false_iff_not]
  omega

/-- A read outside the op memory, other than of LINES, gives the window's word and changes nothing else (R76). -/
theorem hostRead_eq_windowWord {s : State} {o : Nat} (out : s.inOpMemory o = false) (lines : o ≠ 0x028) :
    s.hostRead o = { s with readData := some (s.windowWord o) } := by
  simp [State.hostRead, State.sampleBusy, lines, out]

/-- A read of LINES samples BUSY_SYNC and gives that sample (R51). -/
theorem hostRead_lines (s : State) :
    s.hostRead 0x028 = { s with
      busySync := Config.freeLevel s.levels, levels := s.levels + 1,
      readData := some (0#28 ++ Config.freeLevel s.levels ++ s.rstOut ++ s.dcValid ++ s.dcOut) } := by
  have out : (s.sampleBusy 0x028).inOpMemory 0x028 = false := inOpMemory_eq_false (.inl (by decide))
  simp only [State.hostRead, out]
  rfl

/-- Past LINES the map names no register, and the window reads 0 (R52). -/
theorem windowWord_of_unnamed {s : State} {o : Nat} (h : 0x02C ≤ o) : s.windowWord o = 0 := by
  unfold State.windowWord
  split <;> simp_all

/-- A write that is none of CTRL, ENTRY and the op memory is ignored (R52). -/
theorem hostWrite_eq_self {s : State} {o : Nat} {v : Word} (ctrl : o ≠ 0x000) (entry : o ≠ 0x00C)
    (out : s.inOpMemory o = false) : s.hostWrite o v = s := by
  simp [State.hostWrite, ctrl, entry, out]

/-- Settles O40: every register lies in the window, below the op memory. -/
theorem hostReadsTheWindow : Obligations.HostReadsTheWindow := by
  intro s r o turn
  constructor
  · intro v named
    have word : o < 0x02C ∧ o % 4 = 0 ∧ o ≠ 0x028 ∧ r.windowWord o = v := by
      simp only [List.mem_cons, Prod.mk.injEq, List.not_mem_nil, or_false] at named
      rcases named with ⟨rfl, rfl⟩ | ⟨rfl, rfl⟩ | ⟨rfl, rfl⟩ | ⟨rfl, rfl⟩ | ⟨rfl, rfl⟩ | ⟨rfl, rfl⟩ | ⟨rfl, rfl⟩ |
        ⟨rfl, rfl⟩ | ⟨rfl, rfl⟩ | ⟨rfl, rfl⟩ <;> exact ⟨by decide, by decide, by decide, rfl⟩
    obtain ⟨low, aligned, lines, rfl⟩ := word
    rw [step_read turn (low.trans (by decide)) aligned,
      hostRead_eq_windowWord (inOpMemory_eq_false (.inl (low.trans (by decide)))) lines]
  · rintro rfl
    exact ⟨_, by rw [step_read turn (by decide) rfl, hostRead_lines]⟩

/-- Settles O43: such an offset is outside the op memory, so a read gives the window's 0 and a write meets no case. -/
theorem reservedOffsets : Obligations.ReservedOffsets := by
  intro s r o aligned space outside
  have out : r.inOpMemory o = false := inOpMemory_eq_false outside
  constructor
  · intro unnamed turn
    rw [step_read turn space aligned, hostRead_eq_windowWord out (by omega), windowWord_of_unnamed unnamed]
  · intro v ctrl entry turn
    rw [step_write turn space aligned, hostWrite_eq_self ctrl entry out]

/-- Settles O44. -/
theorem entryIsWritten : Obligations.EntryIsWritten :=
  fun _ _ _ turn => step_write turn (by decide) rfl

/-! ### Status words -/

theorem toNat_append_add {m n : Nat} (x : BitVec m) (y : BitVec n) : (x ++ y).toNat = 2 ^ n * x.toNat + y.toNat := by
  rw [BitVec.toNat_append, ← Nat.shiftLeft_add_eq_or_of_lt y.isLt, Nat.shiftLeft_eq, Nat.mul_comm]

/-- Settles O41: each field lies at its place, and the fields' codes are those of R31 and R251. -/
theorem statusAndCfgLayout : Obligations.StatusAndCfgLayout := by
  intro s
  constructor
  · have fields : s.statusWord.toNat = s.engine.bits.toNat + 256 * s.errCode.bits.toNat := by
      simp only [State.statusWord, toNat_append_add, BitVec.toNat_ofNat]
      omega
    rw [fields]
    congr 1
    · cases s.engine <;> rfl
    · cases s.errCode <;> rfl
  · simp only [State.cfgWord, toNat_append_add, BitVec.toNat_ofNat]
    omega

/-! ### Resets -/

/-- A write of CTRL is performed in any state (R48). -/
theorem step_writeCtrl {s r : State} {v : Word} (turn : HostTurn s (.write .word 0x000 v) r) :
    step s = .next (r.writeCtrl v) :=
  step_write turn (by decide) rfl

/-- Settles O47: bit 1 alone decides, and an SRESET resets the registers and appends the marker. -/
theorem softResetResets : Obligations.SoftResetResets := by
  intro s r v turn
  rw [step_writeCtrl turn]
  constructor
  · intro reset
    exact ⟨r.softReset, by simp only [State.writeCtrl, reset, if_true], by simp [State.softReset, State.byteAt]⟩
  · intro reset start
    simp only [State.writeCtrl, reset, start, Bool.false_eq_true, if_false]

/-- Settles O49: every field of the reset state is a literal. -/
theorem resetState : Obligations.ResetState :=
  ⟨rfl, rfl, rfl, rfl, rfl, rfl, rfl, rfl, rfl, rfl, rfl, rfl, rfl, rfl, rfl, rfl, rfl, rfl⟩

/-! ### Who writes the configuration -/

/-- The six configuration registers of `t` are those of `s` (R37 to R42). -/
abbrev SameConfig (s t : State) : Prop :=
  t.perByte = s.perByte ∧ t.invert = s.invert ∧ t.expand = s.expand ∧ t.frameLen = s.frameLen ∧
    t.pollInterval = s.pollInterval ∧ t.byteGap = s.byteGap

theorem sameConfig_actStep (s : State) (n : Nat) (a : Action) (rest : List Action) :
    SameConfig s (s.actStep n a rest) := by
  simp only [State.actStep]
  split <;> simp [SameConfig]

/-- One engine step of an op other than SETCFG leaves the configuration. -/
theorem sameConfig_exec {s t : State} {i : Instr} (wf : i.wellFormed = true) (h : exec i s = .next t)
    (other : ∀ a b c l p g, i ≠ .setcfg a b c l p g) : SameConfig s t := by
  cases exec_cases wf h with
  | configures a b c l p g hi => exact absurd hi (other a b c l p g)
  | acts => exact sameConfig_actStep ..
  | polls => exact sameConfig_actStep ..
  | stops => simp [SameConfig]
  | begins => simp [SameConfig]
  | waits => simp [SameConfig]
  | rejects => simp [SameConfig]

/-- A step of the engine that runs no SETCFG leaves the configuration. -/
theorem sameConfig_engineStep {s t : State} (h : engineStep s = .next t)
    (other : ∀ a b c l p g, s.running = true → s.fetch ≠ .ok (.setcfg a b c l p g)) : SameConfig s t := by
  rcases engineStep_cases h with ⟨run, i, hf, h⟩ | ⟨-, e, -, rfl⟩ | ⟨-, rfl⟩
  · refine sameConfig_exec (fetch_wellFormed hf) h ?_
    rintro a b c l p g rfl
    exact other a b c l p g run hf
  · simp [SameConfig]
  · simp [SameConfig]

/-- An access of the host that is no SRESET leaves the configuration (R53). -/
theorem sameConfig_hostAccess {s t : State} {a : HostAccess} (h : hostAccess a s = .next t)
    (noReset : ∀ v, a = .write .word 0x000 v → v.getLsbD 1 ≠ true) : SameConfig s t := by
  rcases hostAccess_cases h with ⟨w, o, -, rfl⟩ | ⟨v, ha, reset, -⟩ | ⟨v, -, -, -, stop, rfl⟩ | ⟨v, -, rfl⟩ |
    ⟨o, v, -, -, -, -, rfl⟩ | rfl
  · simp [SameConfig]
  · exact absurd reset (noReset v ha)
  · simp [SameConfig, State.start, stop]
  · simp [SameConfig]
  · simp [SameConfig]
  · simp [SameConfig]

/-- Settles O54: of the ops only SETCFG writes the configuration, and of the host's accesses only an SRESET. -/
theorem onlySetcfgConfigures : Obligations.OnlySetcfgConfigures := by
  intro s t h noPowerOn noReset noSetcfg
  rcases step_cases h with ⟨r, turn, h⟩ | ⟨a, r, turn, h⟩ | ⟨rest, on, -⟩
  · have config := sameConfig_engineStep h fun a b c l p g => noSetcfg r a b c l p g turn
    rw [engineTurn_same turn] at config
    exact config
  · have config := sameConfig_hostAccess h fun v ha reset => by
      obtain ⟨rest, next, -⟩ := turn
      exact noReset ⟨v, rest, ha ▸ next, reset⟩
    rw [hostTurn_same turn] at config
    exact config
  · exact absurd on (noPowerOn rest)

end Sys2Proof.Machine
end

section
/-! PROOFS. The op memory and the host's accesses of it (20_memory.md): which accesses stop, what an access of a word of
op memory does, who leaves the op memory alone, and in what order an op's bytes lie there and go on the wire. -/

namespace Sys2Proof

/-! ### The payload in op memory (R78) -/

/-- Bit `j` of byte `k` of a word. -/
theorem wordByte_getLsbD (w : Word) (k : Nat) {j : Nat} (h : j < 8) :
    (wordByte w k).getLsbD j = w.getLsbD (8 * k + j) := by
  simp [wordByte, h]

/-- The payload of a decoded op of one of the three rows that carry one: COUNT bytes, from the word after the header. -/
theorem operands_payload {o : Opcode} (h : o = .data ∨ o = .cmdData ∨ o = .frame) (word : Nat → Word) :
    (o.operands word).payload = payloadBytes word (headerCount (word 0)).toNat 0 := by
  rcases h with rfl | rfl | rfl <;> rfl

/-- Settles O5: the payload is the run of bytes that `payloadBytes` reads from byte 0 on. -/
theorem payloadIsLittleEndian : Obligations.PayloadIsLittleEndian := by
  intro avail word i decoded row
  obtain ⟨o, -, -, -, -, rfl⟩ := decode_eq_ok.mp decoded
  rw [operands_opcode] at row
  have payload := operands_payload row word
  refine ⟨by rw [payload, payloadBytes_length], fun k hk j hj => ?_⟩
  rw [List.getElem_of_eq payload, payloadBytes_getElem, Nat.zero_add, wordByte_getLsbD _ _ hj]

end Sys2Proof

namespace Sys2Proof.Machine

/-! ### The bytes of a stream on the wire (R79, R162) -/

/-- The bytes an action puts on the wire. -/
def Action.sent : Action → List Byte
  | .xfer b => b
  | _ => []

/-- Whether an action is a transaction. -/
def Action.isXfer : Action → Bool
  | .xfer _ => true
  | _ => false

theorem stream_perByte (gap : Word) (bytes : List Byte) : stream 1 gap bytes = perByteStream gap bytes := by
  cases bytes <;> rfl

/-- The per-byte framing sends the bytes in order. -/
theorem perByteStream_sent (gap : Word) (bytes : List Byte) :
    (perByteStream gap bytes).flatMap Action.sent = bytes := by
  fun_induction perByteStream gap bytes with
  | case1 => rfl
  | case2 => rfl
  | case3 b c rest _ ih => simp [Action.sent, ih]
  | case4 b c rest _ ih => simp [Action.sent, ih]

/-- The per-byte framing makes one transaction a byte. -/
theorem perByteStream_countP_isXfer (gap : Word) (bytes : List Byte) :
    (perByteStream gap bytes).countP Action.isXfer = bytes.length := by
  fun_induction perByteStream gap bytes with
  | case1 => rfl
  | case2 => rfl
  | case3 b c rest _ ih => simp [List.countP_cons, Action.isXfer, ih]
  | case4 b c rest _ ih => simp [List.countP_cons, Action.isXfer, ih]

/-- The per-byte framing waits between each two bytes where there is a gap. -/
theorem perByteStream_count_delay {gap : Word} (h : gap ≠ 0) (bytes : List Byte) :
    (perByteStream gap bytes).count (.delay gap) = bytes.length - 1 := by
  fun_induction perByteStream gap bytes with
  | case1 => rfl
  | case2 => simp
  | case3 b c rest noGap => exact absurd noGap h
  | case4 b c rest _ ih => simp [ih]

/-- Either framing sends the bytes in order. -/
theorem stream_sent (perByte : Bit) (gap : Word) (bytes : List Byte) :
    (stream perByte gap bytes).flatMap Action.sent = bytes := by
  cases bytes with
  | nil => rfl
  | cons b rest =>
    simp only [stream]
    split
    · exact perByteStream_sent gap (b :: rest)
    · simp [Action.sent]

/-- Settles O23: the statement's two functions of an action are `Action.sent` and `Action.isXfer`. -/
theorem streamKeepsItsBytes : Obligations.StreamKeepsItsBytes := by
  intro perByte gap bytes
  refine ⟨stream_sent perByte gap bytes, ?_, ?_⟩
  · rintro rfl
    rw [stream_perByte]
    exact perByteStream_countP_isXfer gap bytes
  · rintro rfl gapped
    rw [stream_perByte]
    exact perByteStream_count_delay gapped bytes

/-! ### Which accesses stop (R70, R73) -/

theorem checkAccess_outside {o : Nat} (h : Config.hostSpace ≤ o) (w : AccessWidth) (go : State) :
    checkAccess w o go = .fault (.outsideAddressSpace o) :=
  if_pos h

theorem checkAccess_width {w : AccessWidth} {o : Nat} (space : o < Config.hostSpace) (h : w ≠ .word) (go : State) :
    checkAccess w o go = .refused (.accessWidth w) :=
  (if_neg (Nat.not_le.mpr space)).trans (if_pos h)

theorem checkAccess_unaligned {o : Nat} (space : o < Config.hostSpace) (h : o % 4 ≠ 0) (go : State) :
    checkAccess .word o go = .refused (.unalignedAccess o) :=
  (if_neg (Nat.not_le.mpr space)).trans ((if_neg (fun k => k rfl)).trans (if_pos h))

/-- The host's turn with a read or a write is the check of its width and offset (R73). -/
theorem step_checkAccess {s r : State} {a : HostAccess} {w : AccessWidth} {o : Nat} (turn : HostTurn s a r)
    (access : a = .read w o ∨ ∃ v, a = .write w o v) : ∃ go, step s = checkAccess w o go := by
  rw [step_hostTurn turn]
  rcases access with rfl | ⟨v, rfl⟩
  · exact ⟨r.hostRead o, rfl⟩
  · exact ⟨r.hostWrite o v, rfl⟩

/-- Settles O46: what the check answers does not depend on what the access would do. -/
theorem unsupportedAccessesStop : Obligations.UnsupportedAccessesStop := by
  intro s r a w o turn access
  obtain ⟨go, checked⟩ := step_checkAccess turn access
  rw [checked]
  refine ⟨fun outside => checkAccess_outside outside w go, fun space width => checkAccess_width space width go, ?_⟩
  rintro space rfl unaligned
  exact checkAccess_unaligned space unaligned go

/-! ### Reads (R76) -/

/-- A host read changes only the host's data and what a sample of BUSY_SYNC changes. -/
theorem hostRead_restored (s : State) (o : Nat) :
    { s.hostRead o with readData := s.readData, busySync := s.busySync, levels := s.levels } = s := by
  simp only [State.hostRead, State.sampleBusy]
  split <;> rfl

/-- Only a read of LINES samples BUSY_SYNC (R51). -/
theorem sampleBusy_eq_self {o : Nat} (lines : o ≠ 0x028) (s : State) : s.sampleBusy o = s := if_neg lines

/-- Settles O42: a performed read is `hostRead`. -/
theorem hostReadsHaveNoSideEffect : Obligations.HostReadsHaveNoSideEffect := by
  intro s r t w o turn performed
  rw [step_hostTurn turn] at performed
  obtain ⟨-, -, -, rfl⟩ := checkAccess_next.mp performed
  refine ⟨hostRead_restored r o, fun lines => ?_⟩
  simp only [State.hostRead, sampleBusy_eq_self lines, and_self]

/-! ### Host accesses of op memory (R74) -/

/-- Word `i` of op memory lies `i` words past OPMEM_BASE (R70). -/
theorem wordOffset_eq (i : Nat) : wordOffset i = 0x10000 + 4 * i := rfl

theorem inOpMemory_wordOffset {s : State} {i : Nat} (h : i < s.params.opmemWords) :
    s.inOpMemory (wordOffset i) = true :=
  decide_eq_true (by simp only [wordOffset_eq, Config.opmemBase]; omega)

/-- A read of a word of op memory gives that word, in any state. -/
theorem hostRead_wordOffset {s : State} {i : Nat} (h : i < s.params.opmemWords) :
    s.hostRead (wordOffset i) = { s with readData := some (s.opWord i) } := by
  have lines : wordOffset i ≠ 0x028 := by rw [wordOffset_eq]; omega
  simp only [State.hostRead, sampleBusy_eq_self lines, inOpMemory_wordOffset h, if_true, State.opWord]

/-- A write of a word of op memory stores it where the engine is stopped, and is dropped where it runs. -/
theorem hostWrite_wordOffset {s : State} {i : Nat} (h : i < s.params.opmemWords) (v : Word) :
    s.hostWrite (wordOffset i) v = if s.running then s else s.writeWord (wordOffset i) v := by
  have ctrl : wordOffset i ≠ 0x000 := by rw [wordOffset_eq]; omega
  have entry : wordOffset i ≠ 0x00C := by rw [wordOffset_eq]; omega
  simp only [State.hostWrite, ctrl, entry, inOpMemory_wordOffset h, if_false, if_true]

theorem opWord_writeWord_same (s : State) (i : Nat) (v : Word) : (s.writeWord (wordOffset i) v).opWord i = v :=
  wordAt_writeWord_same s (wordOffset i) v

/-- Two words of op memory share no byte. -/
theorem opWord_writeWord_other (s : State) {i j : Nat} (h : j ≠ i) (v : Word) :
    (s.writeWord (wordOffset i) v).opWord j = s.opWord j :=
  wordAt_writeWord_other s (wordOffset i) (wordOffset j) v (by simp only [wordOffset_eq]; omega)

/-- Settles O45: a word of op memory is an aligned place of the address space, so both accesses are performed. -/
theorem opMemoryAccess : Obligations.OpMemoryAccess := by
  intro s r i v inside small
  have space : wordOffset i < Config.hostSpace := by
    simp only [wordOffset_eq, Config.hostSpace]
    omega
  have aligned : wordOffset i % 4 = 0 := by
    rw [wordOffset_eq]
    omega
  rw [← wordOffset_eq]
  constructor
  · intro turn
    have written := step_write turn space aligned
    rw [hostWrite_wordOffset inside] at written
    constructor
    · intro run
      rwa [if_pos run] at written
    · intro stop
      rw [if_neg (by simp [stop])] at written
      exact ⟨_, written, opWord_writeWord_same r i v, fun j other => opWord_writeWord_other r other v, rfl⟩
  · intro turn
    rw [← hostRead_wordOffset inside]
    exact step_read turn space aligned

/-! ### Who leaves the op memory alone (R75, R85) -/

/-- The engine never writes op memory (R75). -/
theorem engineStep_memory {s t : State} (h : engineStep s = .next t) : t.mem = s.mem ∧ t.powerOns = s.powerOns := by
  rcases engineStep_cases h with ⟨-, i, decoded, h⟩ | ⟨-, e, -, rfl⟩ | ⟨-, rfl⟩
  · obtain ⟨-, -, mem, powerOns, -, -⟩ := exec_frame (fetch_wellFormed decoded) h
    exact ⟨mem, powerOns⟩
  · exact ⟨rfl, rfl⟩
  · exact ⟨rfl, rfl⟩

/-- While the engine runs, no access of the host writes op memory: an SRESET leaves it too (R74, R291). -/
theorem hostAccess_memory_of_running {s t : State} {a : HostAccess} (run : s.running = true)
    (h : hostAccess a s = .next t) : t.mem = s.mem ∧ t.powerOns = s.powerOns := by
  rcases hostAccess_cases h with ⟨w, o, -, rfl⟩ | ⟨v, -, -, rfl⟩ | ⟨v, -, -, -, stop, -⟩ | ⟨v, -, rfl⟩ |
    ⟨o, v, -, -, -, stop, -⟩ | rfl
  · simp
  · exact ⟨rfl, rfl⟩
  · simp [run] at stop
  · exact ⟨rfl, rfl⟩
  · simp [run] at stop
  · exact ⟨rfl, rfl⟩

theorem not_engineTurn_of_hostTurn {s r q : State} {a : HostAccess} (host : HostTurn s a r) : ¬ EngineTurn s q := by
  obtain ⟨rest, next, -⟩ := host
  rintro (⟨own, -⟩ | ⟨_, own, -⟩)
  · simp [next] at own
  · simp [next] at own

/-- Settles O55: the list of written bytes stays in either turn, and with it every byte. -/
theorem opMemoryIsFixedWhileRunning : Obligations.OpMemoryIsFixedWhileRunning := by
  intro s t h noPowerOn running
  have kept : t.mem = s.mem ∧ t.powerOns = s.powerOns := by
    rcases step_cases h with ⟨r, turn, h⟩ | ⟨a, r, turn, h⟩ | ⟨rest, on, -⟩
    · have same := engineStep_memory h
      rwa [engineTurn_same turn] at same
    · have run : s.running = true := running.resolve_right fun ⟨_, engine⟩ => not_engineTurn_of_hostTurn turn engine
      rw [hostTurn_same turn] at h
      exact hostAccess_memory_of_running (s := { s with schedule := r.schedule }) run h
    · exact absurd on (noPowerOn rest)
  obtain ⟨mem, powerOns⟩ := kept
  exact ⟨mem, byteAt_congr mem powerOns⟩

end Sys2Proof.Machine
end

section
/-! PROOFS. The encoding (30_encoding.md): how many words an op takes, that decode undoes encode, what decode reads of a
payload op, and which header words are illegal. -/

namespace Sys2Proof

/-! ### The size of an op (R106) -/

theorem extension_length (i : Instr) : i.extension.length = i.opcode.extensionWords := by
  cases i <;> rfl

/-- The payload words of an op are those its COUNT asks for: a well-formed payload's length fits COUNT (R103). -/
theorem ceil4_payload_length {i : Instr} (wf : i.wellFormed = true) :
    ceil4 i.payload.length = i.opcode.payloadWords i.countField := by
  have count := payload_count (of_decide_eq_true wf)
  have empty : ceil4 0 = 0 := by decide
  cases i with
  | data p => exact congrArg ceil4 count.symm
  | cmdData c p => exact congrArg ceil4 count.symm
  | frame c p => exact congrArg ceil4 count.symm
  | _ => exact empty

theorem encode_length {i : Instr} (wf : i.wellFormed = true) : (encode i).length = i.size := by
  rw [encode, List.length_cons, List.length_append, extension_length, packBytes_length, ceil4_payload_length wf,
    Instr.size, Opcode.size, Nat.add_comm, Nat.add_assoc]

/-- Settles O4. -/
theorem encodingHasTheOpsSize : Obligations.EncodingHasTheOpsSize := fun _ wf => encode_length wf

/-! ### Decode of encode (R100 to R105, R111) -/

/-- `word` holds, from 0 on, the words encode writes for `i`. -/
def HoldsOp (word : Nat → Word) (i : Instr) : Prop := ∀ k (h : k < (encode i).length), word k = (encode i)[k]

namespace HoldsOp

variable {word : Nat → Word} {i : Instr}

theorem header (held : HoldsOp word i) : word 0 = headerWord i.opcode.opc i.codeField i.countField :=
  held 0 (Nat.succ_pos _)

theorem extension (held : HoldsOp word i) {k : Nat} {w : Word} (h : i.extension[k]? = some w) : word (k + 1) = w := by
  obtain ⟨inside, rfl⟩ := List.getElem?_eq_some_iff.mp h
  rw [held (k + 1) (by simp only [encode, List.length_cons, List.length_append]; omega)]
  simp only [encode, List.getElem_cons_succ, List.getElem_append_left inside]

/-- Where an op has no extension words, its payload words follow the header. -/
theorem payloadWord (held : HoldsOp word i) (noExt : i.extension = []) (k : Nat)
    (h : k < (packBytes i.payload).length) : word (1 + k) = (packBytes i.payload)[k] := by
  rw [Nat.add_comm, held (k + 1) (by simpa [encode, noExt] using h)]
  simp only [encode, noExt, List.nil_append, List.getElem_cons_succ]

/-- Reading a packed payload back, COUNT bytes from the word after the header on, gives the payload (R104). -/
theorem payloadBytes_eq (held : HoldsOp word i) (noExt : i.extension = []) {n : Nat} (count : n = i.payload.length) :
    payloadBytes word n 0 = i.payload := by
  subst count
  apply List.ext_getElem (payloadBytes_length _ _ _)
  intro k _ hk
  have packed : k / 4 < (packBytes i.payload).length := by
    rw [packBytes_length, ceil4]
    omega
  rw [payloadBytes_getElem, Nat.zero_add, held.payloadWord noExt _ packed, ← List.getD_eq_getElem _ 0 packed,
    wordByte_packBytes _ _ hk]

/-- The operands read from the words of a well-formed op are the op's. -/
theorem operands_eq (held : HoldsOp word i) (wf : i.wellFormed = true) : i.opcode.operands word = i := by
  have code : headerCode (word 0) = i.codeField := by rw [held.header, headerCode_headerWord]
  have count : headerCount (word 0) = i.countField := by rw [held.header, headerCount_headerWord]
  have length := payload_count (of_decide_eq_true wf)
  cases i with
  | endOp => rfl
  | reset a b => exact congrArg₂ Instr.reset (held.extension (k := 0) rfl) (held.extension (k := 1) rfl)
  | cmd c => exact congrArg Instr.cmd code
  | data p => exact congrArg Instr.data (held.payloadBytes_eq rfl (by rw [count]; exact length))
  | cmdData c p => exact congrArg₂ Instr.cmdData code (held.payloadBytes_eq rfl (by rw [count]; exact length))
  | fill v n => exact congrArg₂ Instr.fill code count
  | frame c p => exact congrArg₂ Instr.frame code (held.payloadBytes_eq rfl (by rw [count]; exact length))
  | wait idle =>
    have flag : ∀ b : Bit, (0#19 ++ b).extractLsb' 0 1 = b := by decide
    simp only [Instr.opcode, Opcode.operands, count, Instr.countField, flag]
  | setcfg a b c l p g =>
    have flags : ∀ a b c : Bit, (0#17 ++ c ++ b ++ a).extractLsb' 0 1 = a ∧
        (0#17 ++ c ++ b ++ a).extractLsb' 1 1 = b ∧ (0#17 ++ c ++ b ++ a).extractLsb' 2 1 = c := by decide
    obtain ⟨perByte, invert, expand⟩ := flags a b c
    have frameLen : word 1 = l := held.extension (k := 0) rfl
    have pollInterval : word 2 = p := held.extension (k := 1) rfl
    have byteGap : word 3 = g := held.extension (k := 2) rfl
    simp only [Instr.opcode, Opcode.operands, count, Instr.countField, perByte, invert, expand, frameLen, pollInterval,
      byteGap]

end HoldsOp

/-- Settles O1: the encoded header passes every check of R111, and the operands are read back from the words. -/
theorem decodeOfEncodeIsTheOp : Obligations.DecodeOfEncodeIsTheOp := by
  intro i avail word wf fits held
  have header := HoldsOp.header held
  have size : i.opcode.size (headerCount (word 0)) ≤ avail := by
    rw [header, headerCount_headerWord, ← Instr.size, ← encode_length wf]
    exact fits
  refine decode_eq_ok.mpr ⟨i.opcode, ?_, ?_, ?_, size, (HoldsOp.operands_eq held wf).symm⟩
  · rintro rfl
    cases fits
  · rw [header, headerOpc_headerWord]
  · rw [header, headerWord_mustBeZero]

/-- Decode of exactly the words of a well-formed op. -/
theorem decodeWords_encode (i : Instr) (wf : i.wellFormed = true) : decodeWords (encode i) = .ok i :=
  decodeOfEncodeIsTheOp i _ _ wf le_rfl fun _ h => List.getD_eq_getElem _ 0 h

/-- Settles O2: each word sequence is the one encode writes for the op. -/
theorem sampleWordsDecode : Obligations.SampleWordsDecode :=
  ⟨decodeWords_encode .endOp rfl, decodeWords_encode (.reset 10000 2000) rfl, decodeWords_encode (.cmd 0x12) rfl,
    decodeWords_encode (.data [0xAA, 0xBB, 0xCC]) rfl, decodeWords_encode (.cmdData 0x01 [0x03, 0x00]) rfl,
    decodeWords_encode (.fill 0xFF 3) rfl, decodeWords_encode (.frame 0x10 [0x0F, 0xF0]) rfl,
    decodeWords_encode (.wait 1) rfl, decodeWords_encode (.setcfg 1 1 0 2 0 10) rfl⟩

/-! ### What decode reads (R104, R110) -/

/-- Decode depends on the header and on the operands that the header's row reads. -/
theorem decode_congr_operands {avail : Nat} {word word' : Nat → Word} (header : word 0 = word' 0)
    (operands : ∀ o : Opcode, headerOpc (word 0) = o.opc → o.operands word = o.operands word') :
    decode avail word = decode avail word' := by
  unfold decode
  rw [← header]
  cases row : Opcode.ofOpc (headerOpc (word 0)) with
  | none => rfl
  | some o => simp only [operands o (ofOpc_eq_some.mp row).symm]

theorem opc_injective : Function.Injective Opcode.opc := fun o o' h =>
  Option.some.inj (by rw [← ofOpc_opc o, h, ofOpc_opc])

/-- The operands of a payload row are the header's fields and the payload. -/
theorem operands_congr_payload {o : Opcode} {word word' : Nat → Word}
    (row : o = .data ∨ o = .cmdData ∨ o = .frame) (header : word 0 = word' 0)
    (payload : payloadBytes word (headerCount (word 0)).toNat 0 = payloadBytes word' (headerCount (word 0)).toNat 0) :
    o.operands word = o.operands word' := by
  rcases row with rfl | rfl | rfl <;> simp only [Opcode.operands, ← header, payload]

/-- Settles O6: the payload reads only the bytes below COUNT. -/
theorem padBytesAreIgnored : Obligations.PadBytesAreIgnored := by
  intro avail word word' header opc bytes
  refine decode_congr_operands header fun o row => operands_congr_payload ?_ header (payloadBytes_congr fun k hk => ?_)
  · rw [row] at opc
    exact opc.imp (opc_injective (a₂ := .data) ·)
      (Or.imp (opc_injective (a₂ := .cmdData) ·) (opc_injective (a₂ := .frame) ·))
  · apply BitVec.eq_of_getLsbD_eq
    intro j hj
    rw [Nat.zero_add, wordByte_getLsbD _ _ hj, wordByte_getLsbD _ _ hj, bytes k hk j hj]

/-! ### Which headers are legal (R107 to R109, R112) -/

/-- A word that has the pattern of a row has no other row's, since each row fixes OPC (R112). -/
theorem eq_of_match {o o' : Opcode} {h : Word} (m : h &&& o.mask = o.pattern) (m' : h &&& o'.mask = o'.pattern) :
    o' = o :=
  opc_injective (((match_iff o' h).mp m').1.symm.trans ((match_iff o h).mp m).1)

/-- Settles O3: OPC names a row or none, and of a named row the must-be-zero bits decide. -/
theorem headerIsOneRowOrIllegal : Obligations.HeaderIsOneRowOrIllegal := by
  intro avail word nonempty
  cases row : Opcode.ofOpc (headerOpc (word 0)) with
  | none =>
    refine .inr ⟨fun o m => ?_, .inl (decode_reserved nonempty row)⟩
    rw [((match_iff o _).mp m).1, ofOpc_opc] at row
    cases row
  | some o =>
    have opc := (ofOpc_eq_some.mp row).symm
    by_cases zero : word 0 &&& o.mustBeZero = 0
    · have m := (match_iff o _).mpr ⟨opc, zero⟩
      exact .inl ⟨o, m, fun o' m' => eq_of_match m m', fun fits =>
        ⟨_, decode_eq_ok.mpr ⟨o, nonempty, opc, zero, fits, rfl⟩, operands_opcode o word⟩⟩
    · refine .inr ⟨fun o' m' => zero ?_, .inr (decode_mustBeZero nonempty opc zero)⟩
      obtain ⟨opc', zero'⟩ := (match_iff o' _).mp m'
      rwa [opc_injective (opc.symm.trans opc')]

end Sys2Proof

namespace Sys2Proof.Machine

/-! ### The engine's step at an illegal header (R108, R109, R141) -/

/-- A step of the running engine whose decode fails raises the fault of the failure. -/
theorem step_of_fetch_error {s r : State} {e : DecodeError} (turn : EngineTurn s r) (run : r.running = true)
    (failed : r.fetch = .error e) : step s = .next (r.raise (decodeFault e)) := by
  rw [step_engineTurn turn, engineStep, if_pos run, failed]

/-- A step of the running engine whose decode gives an op is a step of that op. -/
theorem step_of_fetch_ok {s r : State} {i : Instr} (turn : EngineTurn s r) (run : r.running = true)
    (decoded : r.fetch = .ok i) : step s = exec i r := by
  rw [step_engineTurn turn, engineStep, if_pos run, decoded]

theorem wordsLeft_ne_zero {r : State} (inside : r.pc.toNat < r.params.opmemWords) : r.wordsLeft ≠ 0 :=
  Nat.sub_ne_zero_of_lt inside

/-- Settles O9: a reserved OPC names no row, and the zero word has END's pattern and size. -/
theorem reservedOpcodeFaults : Obligations.ReservedOpcodeFaults := by
  intro s r turn run inside
  have nonempty := wordsLeft_ne_zero inside
  constructor
  · intro reserved
    exact step_of_fetch_error turn run (decode_reserved nonempty (ofOpc_eq_none.mpr reserved))
  · intro zero
    have decoded : r.fetch = .ok .endOp :=
      decode_eq_ok.mpr ⟨.endOp, nonempty, by rw [Nat.add_zero, zero]; rfl, by rw [Nat.add_zero, zero]; rfl,
        Nat.one_le_iff_ne_zero.mpr nonempty, rfl⟩
    exact step_of_fetch_ok turn run decoded

/-- Settles O10: decode checks the must-be-zero bits of the row before the op's size. -/
theorem mustBeZeroBitFaults : Obligations.MustBeZeroBitFaults := by
  intro s r o turn run inside opc bit
  exact step_of_fetch_error turn run (decode_mustBeZero (wordsLeft_ne_zero inside) opc bit)

end Sys2Proof.Machine
end

section
/-! PROOFS. Two runs of the engine in lockstep (R147): each shared operation and each op keeps two states that agree on
what a run depends on in agreement, with the same events since the runs began. -/

namespace Sys2Proof.Machine

/-- Two runs of the engine, begun with TRACE `p` and `q`, are at `s` and at `t`: the states agree, both runs have
recorded the same events, and no turn is scheduled. -/
structure Lockstep (p q : List Event) (s t : State) : Prop extends SameRun s t where
  events : ∃ events, s.trace = p ++ events ∧ t.trace = q ++ events
  unscheduled : s.schedule = []
  unscheduled' : t.schedule = []

/-- Both outcomes are next states, and these are in lockstep. -/
def LockstepNext (p q : List Event) (o o' : Host.Outcome State Fault Refusal) : Prop :=
  ∃ s t, o = .next s ∧ o' = .next t ∧ Lockstep p q s t

namespace Lockstep

variable {p q : List Event} {s t : State}

/-! ### The shared operations -/

theorem nextDraw (h : Lockstep p q s t) : s.nextDraw = t.nextDraw := by
  rw [← drawAt_zero, ← drawAt_zero, h.answers]

theorem answer (h : Lockstep p q s t) (a : Action) : s.answer a = t.answer a := by
  cases a <;> simp only [State.answer, h.nextDraw]

theorem withTodo (h : Lockstep p q s t) (acts : List Action) :
    Lockstep p q { s with todo := acts } { t with todo := acts } :=
  { h with todo := rfl }

theorem takeDraw (h : Lockstep p q s t) : Lockstep p q s.takeDraw t.takeDraw :=
  { h with answers := fun k => by rw [drawAt_takeDraw, drawAt_takeDraw, h.answers] }

theorem ask (h : Lockstep p q s t) (a : Action) : Lockstep p q (s.ask a) (t.ask a) := by
  cases a with
  | setDC k => exact h.takeDraw
  | setRST l => exact h.takeDraw
  | xfer b => exact h.takeDraw
  | poll =>
    exact { h.takeDraw with
      busySync := congrArg Config.Draw.level h.nextDraw, polls := congrArg satSucc h.polls }
  | delay d => exact h
  | yield d => exact h

theorem record (h : Lockstep p q s t) (e : Event) : Lockstep p q (s.record e) (t.record e) := by
  obtain ⟨events, hs, ht⟩ := h.events
  exact { h with events := ⟨events ++ [e], by simp [hs], by simp [ht]⟩ }

theorem drive (h : Lockstep p q s t) (a : Action) : Lockstep p q (s.drive a) (t.drive a) := by
  cases a with
  | setDC k => exact { h with dcOut := congrArg (selectLevel · k) h.params, dcValid := rfl }
  | setRST l => exact { h with rstOut := rfl }
  | xfer b => exact h
  | delay d => exact h
  | poll => exact h
  | yield d => exact h

theorem perform (h : Lockstep p q s t) (a : Action) : Lockstep p q (s.perform a) (t.perform a) := by
  simp only [State.perform, ← h.answer]
  split
  · exact (h.ask a).record _
  · exact ((h.ask a).record _).drive a

theorem raise (h : Lockstep p q s t) (c : ErrCode) : Lockstep p q (s.raise c) (t.raise c) :=
  { h with errCode := rfl, errPc := h.pc, engine := rfl, todo := rfl }

theorem complete (h : Lockstep p q s t) (n : Nat) : Lockstep p q (s.complete n) (t.complete n) :=
  { h with pc := congrArg (· + BitVec.ofNat 32 n) h.pc, engine := rfl, todo := rfl }

theorem proceed (h : Lockstep p q s t) (n : Nat) (rest : List Action) :
    Lockstep p q (s.proceed n rest) (t.proceed n rest) := by
  cases rest with
  | nil => exact h.complete n
  | cons a rest => exact h.withTodo (a :: rest)

theorem actStep (h : Lockstep p q s t) (n : Nat) (a : Action) (rest : List Action) :
    Lockstep p q (s.actStep n a rest) (t.actStep n a rest) := by
  simp only [State.actStep, ← h.answer]
  split
  · exact (h.perform a).raise _
  · exact (h.perform a).proceed n rest

/-! ### One engine step -/

theorem opStep (h : Lockstep p q s t) (n : Nat) {acts acts' : List Action} (same : acts = acts') :
    Lockstep p q (s.opStep n acts) (t.opStep n acts') := by
  subst same
  simp only [State.opStep, ← h.todo]
  split
  · exact h.withTodo acts
  · exact h.actStep n _ _

theorem opActions (h : Lockstep p q s t) (i : Instr) : opActions s i = opActions t i :=
  opActions_congr i h.perByte h.byteGap h.invert h.expand

theorem beginFrame (h : Lockstep p q s t) (c : Byte) (d : List Byte) :
    Lockstep p q (s.beginFrame c d) (t.beginFrame c d) := by
  have acts : frameActions s c d = frameActions t c d := h.opActions (.frame c d)
  by_cases len : d.length = s.frameLen.toNat
  · have len' : d.length = t.frameLen.toNat := h.frameLen ▸ len
    simp only [State.beginFrame, if_pos len, if_pos len', acts]
    exact h.withTodo _
  · have len' : d.length ≠ t.frameLen.toNat := h.frameLen ▸ len
    simp only [State.beginFrame, if_neg len, if_neg len']
    exact h.raise _

/-- One engine step of the same op keeps two runs in lockstep. -/
theorem exec (h : Lockstep p q s t) (i : Instr) : LockstepNext p q (exec i s) (exec i t) := by
  have acts := h.opActions i
  cases i with
  | endOp => exact ⟨_, _, rfl, rfl, { h with engine := rfl, todo := rfl }⟩
  | reset a b => exact ⟨_, _, rfl, rfl, h.opStep _ rfl⟩
  | cmd c => exact ⟨_, _, rfl, rfl, h.opStep _ rfl⟩
  | data d => exact ⟨_, _, rfl, rfl, h.opStep _ acts⟩
  | cmdData c d => exact ⟨_, _, rfl, rfl, h.opStep _ acts⟩
  | fill v n => exact ⟨_, _, rfl, rfl, h.opStep _ acts⟩
  | frame c d =>
    refine ⟨_, _, rfl, rfl, ?_⟩
    simp only [← h.todo]
    split
    · exact h.beginFrame c d
    · exact h.actStep ..
  | wait idle =>
    refine ⟨_, _, rfl, rfl, ?_⟩
    simp only [← h.todo, ← h.answer, ← h.pollInterval]
    split
    · exact { h with engine := rfl, polls := rfl, todo := rfl }
    · exact h.actStep ..
  | setcfg a b c l i g =>
    exact ⟨_, _, rfl, rfl, { h.complete 4 with
      perByte := rfl, invert := rfl, expand := rfl, frameLen := rfl, pollInterval := rfl, byteGap := rfl }⟩

/-- Two runs in lockstep decode the same op, or the same failure. -/
theorem fetch (h : Lockstep p q s t) : s.fetch = t.fetch := fetch_congr h.params h.pc h.memory

/-- With no turn scheduled, a step of the machine is the engine's. -/
theorem step (h : Lockstep p q s t) : LockstepNext p q (step s) (step t) := by
  rw [step_engineTurn (.inl ⟨h.unscheduled, rfl⟩), step_engineTurn (.inl ⟨h.unscheduled', rfl⟩)]
  simp only [engineStep, ← h.fetch, running_congr h.engine.symm]
  split
  · split
    · exact h.exec _
    · exact ⟨_, _, rfl, rfl, h.raise _⟩
  · exact ⟨_, _, rfl, rfl, h⟩

theorem steps (h : Lockstep p q s t) (n : Nat) : LockstepNext p q (steps n s) (steps n t) := by
  induction n generalizing s t with
  | zero => exact ⟨s, t, rfl, rfl, h⟩
  | succ n ih =>
    obtain ⟨s₁, t₁, hs, ht, h₁⟩ := h.step
    simp only [Machine.steps, hs, ht]
    exact ih h₁

end Lockstep

/-- Two states that agree begin two runs in lockstep. -/
theorem SameRun.lockstep {s t : State} (h : SameRun s t) (hs : s.schedule = []) (ht : t.schedule = []) :
    Lockstep s.trace t.trace s t :=
  { h with events := ⟨[], by simp, by simp⟩, unscheduled := hs, unscheduled' := ht }

/-- Settles O59: two runs from states that agree stay in lockstep. -/
theorem runsAreDetermined : Obligations.RunsAreDetermined := by
  intro n s t s' same hs ht run
  obtain ⟨s₁, t', run₁, run', lock⟩ := (same.lockstep hs ht).steps n
  obtain rfl : s' = s₁ := Host.Outcome.next.inj (run.symm.trans run₁)
  obtain ⟨events, trace, trace'⟩ := lock.events
  exact ⟨t', events, run', lock.toSameRun, trace, trace'⟩

end Sys2Proof.Machine
end

section
/-! PROOFS. The sequencer (41_sequencer.md): START, the decode stage, the next action and the completion of an op, and
what a step can do to PC, TRACE and the lines. -/

namespace Sys2Proof.Machine

/-! ### The engine's turn (R141) and START (R140) -/

/-- Settles O7. -/
theorem stepRunsTheDecodedOp : Obligations.StepRunsTheDecodedOp := fun _ _ _ => step_of_fetch_ok

/-- Settles O8: decode undoes encode, over the words from PC to the end of op memory. -/
theorem stepRunsTheEncodedOp : Obligations.StepRunsTheEncodedOp := by
  intro s r i turn run wf inside held
  have fits : (encode i).length ≤ r.wordsLeft := by
    simp only [State.wordsLeft]
    omega
  exact step_of_fetch_ok turn run (decodeOfEncodeIsTheOp i _ _ wf fits held)

/-- Settles O12: a write of CTRL with bit 0 alone of the two is START. -/
theorem startBeginsARun : Obligations.StartBeginsARun := by
  intro s r v turn start reset
  rw [step_writeCtrl turn]
  simp only [State.writeCtrl, start, reset, State.start, Bool.false_eq_true, if_false, if_true]
  constructor
  · intro stop
    simp only [stop, Bool.false_eq_true, if_false]
  · intro run
    simp only [run, if_true]

/-- Settles O13: such an engine is not running. -/
theorem stoppedEngineDoesNothing : Obligations.StoppedEngineDoesNothing := by
  intro s r turn stopped
  rw [step_engineTurn turn, engineStep, not_running_iff.mpr stopped]
  rfl

/-- Settles O14: the meaning of END. -/
theorem endStopsTheRun : Obligations.EndStopsTheRun := fun _ => rfl

/-- Settles O15: the meaning of SETCFG, with stage 3 for its four words. -/
theorem setcfgLoadsTheConfiguration : Obligations.SetcfgLoadsTheConfiguration := fun _ _ _ _ _ _ _ => rfl

/-! ### The decode stage -/

/-- The per-byte framing with no gap is one transaction a byte. -/
theorem perByteStream_noGap (bytes : List Byte) : perByteStream 0 bytes = bytes.map (fun b => .xfer [b]) := by
  fun_induction perByteStream 0 bytes with
  | case1 => rfl
  | case2 => rfl
  | case3 b c rest _ ih => rw [ih]; rfl
  | case4 b c rest gapped => exact absurd rfl gapped

/-- The per-byte framing with a gap has it between each two transactions. -/
theorem perByteStream_gap {gap : Word} (h : gap ≠ 0) (bytes : List Byte) :
    perByteStream gap bytes = (bytes.map (fun b => .xfer [b])).intersperse (.delay gap) := by
  fun_induction perByteStream gap bytes with
  | case1 => rfl
  | case2 => rfl
  | case3 b c rest noGap => exact absurd noGap h
  | case4 b c rest _ ih => rw [ih]; rfl

/-- Stream(L) puts on the wire what R162 says. -/
theorem stream_eq_wireActions (perByte : Bit) (gap : Word) (bytes : List Byte) :
    stream perByte gap bytes = wireActions perByte gap bytes := by
  cases bytes with
  | nil => rfl
  | cons b rest =>
    simp only [wireActions, reduceCtorEq, if_false]
    obtain rfl | rfl : perByte = 0 ∨ perByte = 1 := by revert perByte; decide
    · rfl
    · rw [stream_perByte, if_neg (by decide)]
      split
      · next noGap => rw [noGap, perByteStream_noGap]
      · next gapped => exact perByteStream_gap gapped _

/-- tx(b) flips every bit where INVERT is set (R220). -/
theorem tx_eq_xor (invert : Bit) (b : Byte) : tx invert b = if invert = 1 then b ^^^ 0xFF else b := by
  rw [tx, ← BitVec.xor_allOnes]
  rfl

/-- The decode stage of an op other than WAIT that has actions makes them the progress (R141). -/
theorem exec_begins {s : State} {i : Instr} (todo : s.todo = []) (notWait : ∀ idle, i ≠ .wait idle)
    (acts : opActions s i ≠ []) (len : ∀ c p, i = .frame c p → p.length = s.frameLen.toNat) :
    exec i s = .next { s with todo := opActions s i } := by
  cases i with
  | endOp => exact absurd rfl acts
  | setcfg => exact absurd rfl acts
  | wait idle => exact absurd rfl (notWait idle)
  | frame c p => simp only [exec, execFrame, todo, State.beginFrame, if_pos (len c p rfl), opActions]
  | reset a b => simp only [exec, execReset, State.opStep, todo, opActions]
  | cmd c => simp only [exec, execCmd, State.opStep, todo, opActions]
  | data p => simp only [exec, execData, State.opStep, todo, opActions]
  | cmdData c p => simp only [exec, execCmdData, State.opStep, todo, opActions]
  | fill v n => simp only [exec, execFill, State.opStep, todo, opActions]

/-- The decode stage of WAIT (R203). -/
theorem exec_beginsWait {s : State} (todo : s.todo = []) (idle : Bit) : exec (.wait idle) s = .next s.beginWait := by
  simp only [exec, execWait, todo]

/-- Settles O16: the actions of each op, its stream as R162 puts it on the wire. -/
theorem opsBegin : Obligations.OpsBegin := by
  intro s todo
  simp only [← stream_eq_wireActions, ← tx_eq_xor]
  refine ⟨fun a b => ?reset, fun c => ?cmd, fun p => ?data, fun c p => ?cmdData, fun v n => ?fill,
    fun c p len => ?frame, exec_beginsWait todo⟩
  case frame => exact exec_begins todo (by simp) (List.cons_ne_nil _ _) (by rintro _ _ ⟨⟩; exact len)
  all_goals exact exec_begins todo (by simp) (List.cons_ne_nil _ _) (by simp)

/-! ### The next action -/

/-- The next action of an op that has actions, other than WAIT (R141). -/
theorem exec_acts {s : State} {i : Instr} {a : Action} {rest : List Action} (wf : i.wellFormed = true)
    (row : i.opcode ∈ [Opcode.reset, .cmd, .data, .cmdData, .fill, .frame]) (todo : s.todo = a :: rest) :
    exec i s = .next (s.actStep i.size a rest) := by
  obtain ⟨t, ht⟩ := exec_total i s
  rw [ht]
  cases exec_cases wf ht with
  | stops hi => subst hi; simp [Instr.opcode] at row
  | configures a b c l p g hi => subst hi; simp [Instr.opcode] at row
  | begins none => simp [todo] at none
  | waits idle none => simp [todo] at none
  | rejects c p none => simp [todo] at none
  | acts b rest' pending =>
    cases todo.symm.trans pending
    rfl
  | polls idle b rest' _ hi => subst hi; simp [Instr.opcode] at row

/-- Settles O17: an answer other than `err` lets the op proceed. -/
theorem opsGoOn : Obligations.OpsGoOn := by
  intro i s a rest wf row todo ok
  rw [exec_acts wf row todo, actStep_of_ok _ _ ok]
  cases rest with
  | nil => rw [if_pos rfl, State.proceed, State.complete, State.perform_pc]
  | cons b rest => rw [if_neg (List.cons_ne_nil b rest), State.proceed]

/-! ### PC: an op stays at it or completes (R143) -/

/-- PC is in `t` what it was in `s`, and where an op is then in progress, the engine still runs as it did or waits. -/
structure StaysAtPc (s t : State) : Prop where
  pc : t.pc = s.pc
  engine : t.todo ≠ [] → t.engine = s.engine ∨ t.engine = .wait

/-- The op of `size` words has completed in `t`: stage 3 of R141. -/
structure Completes (size : Nat) (s t : State) : Prop where
  pc : t.pc = s.pc + BitVec.ofNat 32 size
  engine : t.engine = .run
  todo : t.todo = []

/-- An action of an op leaves PC as it is, or completes the op. -/
theorem actStep_pc (s : State) (size : Nat) (a : Action) (rest : List Action) :
    StaysAtPc s (s.actStep size a rest) ∨ Completes size s (s.actStep size a rest) := by
  by_cases err : s.answer a = .err
  · rw [actStep_of_err _ _ err]
    exact .inl ⟨by simp, by simp⟩
  · rw [actStep_of_ok _ _ err]
    cases rest with
    | nil => exact .inr ⟨by simp [State.proceed], rfl, rfl⟩
    | cons b rest => exact .inl ⟨by simp [State.proceed], by simp [State.proceed]⟩

/-- One engine step of an op leaves PC as it is, or completes an op other than END. -/
theorem exec_pc {s t : State} {i : Instr} (wf : i.wellFormed = true) (h : exec i s = .next t) :
    StaysAtPc s t ∨ (i ≠ .endOp ∧ Completes i.size s t) := by
  cases exec_cases wf h with
  | stops => exact .inl ⟨rfl, by simp⟩
  | configures a b c l p g hi => subst hi; exact .inr ⟨by simp, ⟨rfl, rfl, rfl⟩⟩
  | begins => exact .inl ⟨rfl, by simp⟩
  | waits => exact .inl ⟨rfl, fun _ => .inr rfl⟩
  | rejects => exact .inl ⟨rfl, by simp⟩
  | acts a rest _ notEnd => exact (actStep_pc s _ a rest).imp_right (⟨notEnd, ·⟩)
  | polls idle a rest _ hi => subst hi; exact (actStep_pc s _ a _).imp_right (⟨by simp, ·⟩)

/-- An access of the host that is no SRESET leaves PC as it is, or is a START of a stopped engine (R53, R140). -/
theorem hostAccess_pc {s t : State} {a : HostAccess} (h : hostAccess a s = .next t)
    (noReset : ∀ v, a = .write .word 0x000 v → v.getLsbD 1 ≠ true) :
    t.pc = s.pc ∨
      ∃ v, a = .write .word 0x000 v ∧ v.getLsbD 0 = true ∧ s.running = false ∧ t.pc = s.entry := by
  rcases hostAccess_cases h with ⟨w, o, -, rfl⟩ | ⟨v, ha, reset, -⟩ | ⟨v, ha, -, start, stop, rfl⟩ | ⟨v, -, rfl⟩ |
    ⟨o, v, -, -, -, -, rfl⟩ | rfl
  · simp
  · exact absurd reset (noReset v ha)
  · exact .inr ⟨v, ha, start, stop, by simp [State.start, stop]⟩
  · simp
  · simp
  · simp

/-- An access of the host in a turn that is no SRESET. -/
theorem noReset_of_hostTurn {s r : State} {a : HostAccess} (turn : HostTurn s a r) (h : ¬ SoftResetTurn s) :
    ∀ v, a = .write .word 0x000 v → v.getLsbD 1 ≠ true := by
  rintro v rfl reset
  obtain ⟨rest, next, -⟩ := turn
  exact h ⟨v, rest, next, reset⟩

/-- Settles O20: in the engine's turn the op at PC completes, in the host's the engine is started. -/
theorem pcChangesOnlySo : Obligations.PcChangesOnlySo := by
  intro s t h noPowerOn noReset moved
  rcases step_cases h with ⟨r, turn, h⟩ | ⟨a, r, turn, h⟩ | ⟨rest, on, -⟩
  · have pc : r.pc = s.pc := by rw [engineTurn_same turn]
    rw [← pc] at moved ⊢
    rcases engineStep_cases h with ⟨run, i, decoded, h⟩ | ⟨-, e, -, rfl⟩ | ⟨-, rfl⟩
    · rcases exec_pc (fetch_wellFormed decoded) h with stays | ⟨notEnd, done⟩
      · exact absurd stays.pc moved
      · exact .inr ⟨r, i, turn, run, decoded, notEnd, done.pc, done.engine, done.todo⟩
    · exact absurd rfl moved
    · exact absurd rfl moved
  · have same := hostTurn_same turn
    rcases hostAccess_pc h (noReset_of_hostTurn turn noReset) with stays | ⟨v, rfl, start, stop, entry⟩
    · rw [same] at stays
      exact absurd stays moved
    · obtain ⟨rest, next, rfl⟩ := turn
      exact .inl ⟨v, rest, next, start, stop, entry⟩
  · exact absurd on (noPowerOn rest)

/-! ### Steps inside an op are steps of the machine (R141, R142) -/

/-- `n` steps of an engine that runs the op `i` are `n` engine steps of `i`, as long as they stay inside it. -/
theorem steps_eq_opRun {n : Nat} {i : Instr} {s : State} (own : s.schedule = []) (run : s.running = true)
    (decoded : s.fetch = .ok i)
    (inside : ∀ k t, 0 < k → k < n → opRun k i s = .next t → t.todo ≠ []) : steps n s = opRun n i s := by
  induction n generalizing s with
  | zero => rfl
  | succ n ih =>
    obtain ⟨t, ht⟩ := exec_total i s
    have wf := fetch_wellFormed decoded
    simp only [steps, opRun, step_of_fetch_ok (.inl ⟨own, rfl⟩) run decoded, ht]
    cases n with
    | zero => rfl
    | succ n =>
      have todo : t.todo ≠ [] := inside 1 t Nat.one_pos (by omega) (by simp only [opRun, ht])
      obtain ⟨params, -, mem, powerOns, schedule, -⟩ := exec_frame wf ht
      obtain stays | ⟨-, done⟩ := exec_pc wf ht
      · refine ih (schedule.trans own) ?_ ?_ fun k u pos lt later => ?_
        · rw [running_iff] at run ⊢
          rcases stays.engine todo with same | wait
          · rwa [same]
          · exact .inr wait
        · rw [fetch_eq_of_same params stays.pc mem powerOns, decoded]
        · exact inside (k + 1) u (Nat.succ_pos k) (by omega) (by simpa only [opRun, ht] using later)
      · exact absurd done.todo todo

/-- Settles O58. -/
theorem opRunIsARunOfTheMachine : Obligations.OpRunIsARunOfTheMachine :=
  fun _ _ _ own run decoded _ inside => steps_eq_opRun own run decoded inside

/-! ### TRACE and the lines (R142, R148) -/

/-- DC_OUT, DC_VALID and RST_OUT of `t` are those of `s`. -/
abbrev SameLines (s t : State) : Prop := t.dcOut = s.dcOut ∧ t.dcValid = s.dcValid ∧ t.rstOut = s.rstOut

/-- From `s` to `t` nothing was recorded and no line was driven. -/
abbrev Silent (s t : State) : Prop := t.trace = s.trace ∧ SameLines s t

/-- From `s` to `t` one action was performed and recorded; it drove the lines only where it was answered `ok`. -/
def Acts (s t : State) : Prop :=
  ∃ a answer, t.trace = s.trace ++ [.act a answer] ∧ (answer = .ok ∨ SameLines s t)

/-- An action that is not answered `ok` drives no line: it failed, or it is a POLL (R43, R44). -/
theorem perform_sameLines {s : State} {a : Action} (h : s.answer a ≠ .ok) : SameLines s (s.perform a) := by
  by_cases err : s.answer a = .err
  · simp [perform_of_err err, SameLines]
  · have poll : a = .poll := not_not.mp (mt (answer_ok err) h)
    subst poll
    simp [perform_of_ok err, State.drive, SameLines]

theorem actStep_acts (s : State) (n : Nat) (a : Action) (rest : List Action) : Acts s (s.actStep n a rest) := by
  refine ⟨a, s.answer a, ?_, or_iff_not_imp_left.mpr fun notOk => ?_⟩
  · simp only [State.actStep]
    split <;> simp
  · obtain ⟨dcOut, dcValid, rstOut⟩ := perform_sameLines notOk
    simp only [State.actStep]
    split <;> simp [SameLines, dcOut, dcValid, rstOut]

/-- One engine step of an op performs at most one action (R142). -/
theorem exec_silent_or_acts {s t : State} {i : Instr} (wf : i.wellFormed = true) (h : exec i s = .next t) :
    Silent s t ∨ Acts s t := by
  cases exec_cases wf h with
  | acts => exact .inr (actStep_acts ..)
  | polls => exact .inr (actStep_acts ..)
  | stops => exact .inl ⟨rfl, rfl, rfl, rfl⟩
  | configures => exact .inl ⟨rfl, rfl, rfl, rfl⟩
  | begins => exact .inl ⟨rfl, rfl, rfl, rfl⟩
  | waits => exact .inl ⟨rfl, rfl, rfl, rfl⟩
  | rejects => exact .inl ⟨rfl, rfl, rfl, rfl⟩

/-- A step of the engine performs at most one action, and one only where it runs. -/
theorem engineStep_silent_or_acts {s t : State} (h : engineStep s = .next t) :
    Silent s t ∨ (s.running = true ∧ Acts s t) := by
  rcases engineStep_cases h with ⟨run, i, decoded, h⟩ | ⟨-, e, -, rfl⟩ | ⟨-, rfl⟩
  · exact (exec_silent_or_acts (fetch_wellFormed decoded) h).imp_right (⟨run, ·⟩)
  · exact .inl ⟨rfl, rfl, rfl, rfl⟩
  · exact .inl ⟨rfl, rfl, rfl, rfl⟩

/-- An access of the host records nothing and drives no line, or is an SRESET and records its marker (R291). -/
theorem hostAccess_silent_or_marks {s t : State} {a : HostAccess} (h : hostAccess a s = .next t) :
    Silent s t ∨ ∃ v, a = .write .word 0x000 v ∧ v.getLsbD 1 = true ∧ t.trace = s.trace ++ [.sreset] := by
  rcases hostAccess_cases h with ⟨w, o, -, rfl⟩ | ⟨v, ha, reset, rfl⟩ | ⟨v, -, -, -, stop, rfl⟩ | ⟨v, -, rfl⟩ |
    ⟨o, v, -, -, -, -, rfl⟩ | rfl
  · simp [Silent, SameLines]
  · exact .inr ⟨v, ha, reset, rfl⟩
  · simp [Silent, State.start, stop, SameLines]
  · simp [Silent, SameLines]
  · simp [Silent, SameLines]
  · simp [Silent, SameLines]

/-- What a step other than a power-on reset does to TRACE and the lines: nothing, one action of a running engine, or
an SRESET. -/
theorem step_silent_or_acts_or_marks {s t : State} (h : step s = .next t) (noPowerOn : NoPowerOn s) :
    Silent s t ∨ (∃ r, EngineTurn s r ∧ r.running = true ∧ Acts s t) ∨
      (SoftResetTurn s ∧ t.trace = s.trace ++ [.sreset]) := by
  rcases step_cases h with ⟨r, turn, h⟩ | ⟨a, r, turn, h⟩ | ⟨rest, on, -⟩
  · have same := engineTurn_same turn
    rcases engineStep_silent_or_acts h with silent | ⟨run, acts⟩
    · rw [same] at silent
      exact .inl silent
    · rw [same] at acts
      exact .inr (.inl ⟨r, turn, run, acts⟩)
  · obtain ⟨rest, next, rfl⟩ := turn
    rcases hostAccess_silent_or_marks h with silent | ⟨v, rfl, reset, marked⟩
    · exact .inl silent
    · exact .inr (.inr ⟨⟨v, rest, next, reset⟩, marked⟩)
  · exact absurd on (noPowerOn rest)

/-- Settles O52. -/
theorem oneEventPerStep : Obligations.OneEventPerStep := by
  intro s t h noPowerOn
  rcases step_silent_or_acts_or_marks h noPowerOn with ⟨same, -⟩ | ⟨r, turn, run, a, answer, recorded, -⟩ | marked
  · exact .inl same
  · exact .inr (.inl ⟨a, answer, r, turn, run, recorded⟩)
  · exact .inr (.inr marked)

/-- Settles O53: where the lines are not the same, the step was an action answered `ok`. -/
theorem onlyOpsDriveTheLines : Obligations.OnlyOpsDriveTheLines := by
  intro s t h noPowerOn noReset changed
  have driven : ¬ SameLines s t := by
    rintro ⟨dcOut, dcValid, rstOut⟩
    simp [dcOut, dcValid, rstOut] at changed
  rcases step_silent_or_acts_or_marks h noPowerOn with ⟨-, lines⟩ | ⟨r, turn, run, a, answer, recorded, ok⟩ | ⟨reset, -⟩
  · exact absurd lines driven
  · obtain rfl := ok.resolve_right driven
    exact ⟨r, a, turn, run, recorded⟩
  · exact absurd reset noReset

end Sys2Proof.Machine
end

section
/-! PROOFS. What each action records in TRACE and writes (42_framer.md R160, R161), and the frame of one engine step of
an op of the bus. -/

namespace Sys2Proof.Machine

/-! ### One action (R14, R160, R161, R180, R201) -/

theorem perform_setDC (s : State) (k : Select) : s.perform (.setDC k) = { s with
    dcOut := if s.nextDraw.fails then s.dcOut else selectLevel s.params k,
    dcValid := if s.nextDraw.fails then s.dcValid else 1,
    trace := s.trace ++ [.act (.setDC k) (if s.nextDraw.fails then .err else .ok)],
    script := s.script.tail, draws := s.draws + 1 } := by
  cases fails : s.nextDraw.fails
  · rw [perform_of_ok (by simp [State.answer, fails]), State.answer, fails]; rfl
  · rw [perform_of_err (by simp [State.answer, fails])]; rfl

theorem perform_setRST (s : State) (l : Bit) : s.perform (.setRST l) = { s with
    rstOut := if s.nextDraw.fails then s.rstOut else l,
    trace := s.trace ++ [.act (.setRST l) (if s.nextDraw.fails then .err else .ok)],
    script := s.script.tail, draws := s.draws + 1 } := by
  cases fails : s.nextDraw.fails
  · rw [perform_of_ok (by simp [State.answer, fails]), State.answer, fails]; rfl
  · rw [perform_of_err (by simp [State.answer, fails])]; rfl

/-- An action that drives no line leaves what asking and recording it make of the state. -/
theorem perform_of_drive_eq {s : State} {a : Action} (h : ∀ t : State, t.drive a = t) :
    s.perform a = (s.ask a).record (.act a (s.answer a)) := by
  simp only [State.perform, h, ite_self]

theorem perform_xfer (s : State) (b : List Byte) : s.perform (.xfer b) = { s with
    trace := s.trace ++ [.act (.xfer b) (if s.nextDraw.fails then .err else .ok)],
    script := s.script.tail, draws := s.draws + 1 } := perform_of_drive_eq fun _ => rfl

theorem perform_poll (s : State) : s.perform .poll = { s with
    polls := satSucc s.polls, busySync := s.nextDraw.level,
    trace := s.trace ++ [.act .poll (if s.nextDraw.fails then .err else .level s.nextDraw.level)],
    script := s.script.tail, draws := s.draws + 1 } := perform_of_drive_eq fun _ => rfl

theorem perform_delay (s : State) (d : Word) :
    s.perform (.delay d) = { s with trace := s.trace ++ [.act (.delay d) .ok] } := perform_of_drive_eq fun _ => rfl

theorem perform_yield (s : State) (d : Word) :
    s.perform (.yield d) = { s with trace := s.trace ++ [.act (.yield d) .ok] } := perform_of_drive_eq fun _ => rfl

/-- The level of a select value, spelled as R160 does. -/
theorem selectLevel_eq (p : Config.Params) (k : Select) :
    selectLevel p k = if k = .cmd then p.dcCmdLevel else 1 - p.dcCmdLevel := by
  cases k <;> rfl

/-- Settles O21. -/
theorem actionsDriveTheLines : Obligations.ActionsDriveTheLines := by
  intro s
  simp only [← selectLevel_eq]
  exact ⟨perform_setDC s, perform_setRST s, perform_xfer s, perform_poll s, perform_delay s, perform_yield s⟩

/-! ### Which action changes which register -/

theorem perform_dc {s : State} {a : Action} (h : ∀ k, a ≠ .setDC k) :
    (s.perform a).dcOut = s.dcOut ∧ (s.perform a).dcValid = s.dcValid := by
  cases a with
  | setDC k => exact absurd rfl (h k)
  | _ => simp [perform_setRST, perform_xfer, perform_delay, perform_poll, perform_yield]

theorem perform_rstOut {s : State} {a : Action} (h : ∀ l, a ≠ .setRST l) : (s.perform a).rstOut = s.rstOut := by
  cases a with
  | setRST l => exact absurd rfl (h l)
  | _ => simp [perform_setDC, perform_xfer, perform_delay, perform_poll, perform_yield]

theorem perform_polls {s : State} {a : Action} (h : a ≠ .poll) :
    (s.perform a).polls = s.polls ∧ (s.perform a).busySync = s.busySync := by
  cases a with
  | poll => exact absurd rfl h
  | _ => simp [perform_setDC, perform_setRST, perform_xfer, perform_delay, perform_yield]

/-! ### One action of an op: the registers `perform` sets stay as it left them -/

@[simp] theorem actStep_dcOut (s : State) (n : Nat) (a : Action) (rest : List Action) :
    (s.actStep n a rest).dcOut = (s.perform a).dcOut := by
  simp only [State.actStep]; split <;> simp

@[simp] theorem actStep_dcValid (s : State) (n : Nat) (a : Action) (rest : List Action) :
    (s.actStep n a rest).dcValid = (s.perform a).dcValid := by
  simp only [State.actStep]; split <;> simp

@[simp] theorem actStep_rstOut (s : State) (n : Nat) (a : Action) (rest : List Action) :
    (s.actStep n a rest).rstOut = (s.perform a).rstOut := by
  simp only [State.actStep]; split <;> simp

@[simp] theorem actStep_polls (s : State) (n : Nat) (a : Action) (rest : List Action) :
    (s.actStep n a rest).polls = (s.perform a).polls := by
  simp only [State.actStep]; split <;> simp

@[simp] theorem actStep_busySync (s : State) (n : Nat) (a : Action) (rest : List Action) :
    (s.actStep n a rest).busySync = (s.perform a).busySync := by
  simp only [State.actStep]; split <;> simp

@[simp] theorem actStep_levels (s : State) (n : Nat) (a : Action) (rest : List Action) :
    (s.actStep n a rest).levels = s.levels := by
  simp only [State.actStep]; split <;> simp

theorem actStep_sameRest (s : State) (n : Nat) (a : Action) (rest : List Action) :
    SameRest s (s.actStep n a rest) := by
  obtain ⟨params, entry, perByte, invert, expand, frameLen, pollInterval, byteGap, -, powerOns, schedule,
    readData, -⟩ := actStep_frame s n a rest
  exact ⟨params, entry, perByte, invert, expand, frameLen, pollInterval, byteGap, byteAt_actStep s n a rest, powerOns,
    actStep_levels s n a rest, schedule, readData⟩

/-- An action of an op writes the fault registers only where it fails. -/
theorem actStep_faultRegisters {s : State} {n : Nat} {a : Action} {rest : List Action}
    (h : (s.actStep n a rest).engine ≠ .fault) :
    (s.actStep n a rest).errCode = s.errCode ∧ (s.actStep n a rest).errPc = s.errPc := by
  by_cases err : s.answer a = .err
  · rw [actStep_of_err _ _ err] at h
    exact absurd rfl h
  · simp [actStep_of_ok _ _ err]

/-! ### The frame of the ops of the bus -/

/-- The rows of the ops that send bytes on the bus (R163 to R165, R223, R224). -/
abbrev busRows : List Opcode := [.cmd, .data, .cmdData, .fill, .frame]

/-- What an action changes of DC: nothing, or it is a SETDC that succeeds (R43, R160). -/
theorem perform_dc_cases (s : State) (a : Action) :
    ((s.perform a).dcOut = s.dcOut ∧ (s.perform a).dcValid = s.dcValid) ∨
      ∃ k, a = .setDC k ∧ s.answer (.setDC k) = .ok ∧ (s.perform a).dcValid = 1 ∧
        (s.perform a).dcOut = selectLevel s.params k := by
  by_cases select : ∃ k, a = .setDC k
  · obtain ⟨k, rfl⟩ := select
    cases fails : s.nextDraw.fails
    · exact .inr ⟨k, rfl, by simp [State.answer, fails], by simp [perform_setDC, fails],
        by simp [perform_setDC, fails]⟩
    · exact .inl (by simp [perform_setDC, fails])
  · exact .inl (perform_dc (not_exists.mp select))

/-- Settles O27: the decode stage writes the progress or raises PRECONDITION, and every action after it is a SETDC, a
transaction or a gap. -/
theorem busOpsFrame : Obligations.BusOpsFrame := by
  intro i s t row wf inOp h
  cases exec_cases wf h with
  | stops hi => subst hi; simp [Instr.opcode] at row
  | configures a b c l p g hi => subst hi; simp [Instr.opcode] at row
  | waits idle _ hi => subst hi; simp [Instr.opcode] at row
  | polls idle a rest _ hi => subst hi; simp [Instr.opcode] at row
  | begins =>
    exact ⟨⟨rfl, rfl, rfl, rfl, rfl, rfl, rfl, rfl, fun _ => rfl, rfl, rfl, rfl, rfl⟩, rfl, rfl, rfl,
      fun _ => ⟨rfl, rfl⟩, .inl ⟨rfl, rfl⟩⟩
  | rejects =>
    exact ⟨⟨rfl, rfl, rfl, rfl, rfl, rfl, rfl, rfl, fun _ => rfl, rfl, rfl, rfl, rfl⟩, rfl, rfl, rfl,
      fun running => absurd rfl running, .inl ⟨rfl, rfl⟩⟩
  | acts a rest todo =>
    have own : a ∈ opActions s i := inOp.subset (todo ▸ List.mem_cons_self)
    have bus := mem_opActions_bus row own
    have notPoll : a ≠ .poll := by rintro rfl; simp at bus
    have notReset : ∀ l, a ≠ .setRST l := by rintro l rfl; simp at bus
    obtain ⟨polls, busySync⟩ := perform_polls (s := s) notPoll
    refine ⟨actStep_sameRest .., by simp [perform_rstOut notReset], by simp [polls], by simp [busySync],
      actStep_faultRegisters, ?_⟩
    rw [actStep_dcOut, actStep_dcValid]
    refine (perform_dc_cases s a).imp_right ?_
    rintro ⟨k, rfl, ok, valid, level⟩
    exact ⟨k, rest, todo, ok, valid, level.trans (selectLevel_eq _ _)⟩

end Sys2Proof.Machine
end

section
/-! PROOFS. The framer (42_framer.md): the run of an op whose actions are all answered `ok`, and what CMD, DATA and
CMD_DATA leave. -/

namespace Sys2Proof.Machine

/-! ### A run of actions, none of them answered `err` -/

/-- The progress does not bear on what an action does. -/
theorem perform_withTodo (s : State) (acts : List Action) (a : Action) :
    State.perform { s with todo := acts } a = { s.perform a with todo := acts } := by
  cases a with
  | setDC => simp only [perform_setDC]; rfl
  | setRST => simp only [perform_setRST]; rfl
  | xfer => simp only [perform_xfer]; rfl
  | delay => simp only [perform_delay]
  | poll => simp only [perform_poll]; rfl
  | yield => simp only [perform_yield]

theorem foldl_perform_withTodo (s : State) (acts todo : List Action) :
    acts.foldl State.perform { s with todo := todo } = { acts.foldl State.perform s with todo := todo } :=
  List.foldl_hom (fun t : State => { t with todo := todo }) fun t a => perform_withTodo t todo a

theorem proceed_withTodo (s : State) (todo : List Action) (size : Nat) (rest : List Action) :
    State.proceed { s with todo := todo } size rest = s.proceed size rest := by
  cases rest <;> rfl

/-- The draws still to come after an action: those of before, but for the one it took. -/
theorem drawAt_perform (s : State) (a : Action) (k : Nat) : (s.perform a).drawAt k = s.drawAt (askCount [a] + k) := by
  have taken : s.drawAt (1 + k) = s.takeDraw.drawAt k := by rw [drawAt_takeDraw, Nat.add_comm]
  cases a with
  | setDC => rw [perform_setDC]; exact taken.symm
  | setRST => rw [perform_setRST]; exact taken.symm
  | xfer => rw [perform_xfer]; exact taken.symm
  | poll => rw [perform_poll]; exact taken.symm
  | delay => rw [perform_delay]; exact congrArg s.drawAt (Nat.zero_add k).symm
  | yield => rw [perform_yield]; exact congrArg s.drawAt (Nat.zero_add k).symm

theorem askCount_cons (a : Action) (acts : List Action) : askCount (a :: acts) = askCount [a] + askCount acts := by
  rw [askCount, List.countP_cons, Nat.add_comm, askCount, List.countP_singleton, askCount]

/-- Where no answer to a list of actions is `err`, neither is the first nor, after it, any later one. -/
theorem answersOk_cons {s : State} {a : Action} {acts : List Action} (h : s.answersOk (askCount (a :: acts))) :
    s.answer a ≠ .err ∧ (s.perform a).answersOk (askCount acts) := by
  rw [askCount_cons] at h
  refine ⟨fun err => ?_, fun k lt => ?_⟩
  · obtain ⟨asks, fails⟩ := answer_eq_err.mp err
    have first := h 0 (by simp [askCount, asks])
    rw [drawAt_zero, fails] at first
    exact absurd first (by decide)
  · rw [drawAt_perform]
    exact h _ (by omega)

/-- The op `i` of `size` words performs its progress one action a step. -/
abbrev ActsInTurn (i : Instr) (size : Nat) : Prop :=
  ∀ (s : State) (a : Action) (rest : List Action), s.todo = a :: rest → exec i s = .next (s.actStep size a rest)

/-- A run of the next actions of an op, none answered `err`: it performs them and proceeds with the rest (R141). -/
theorem opRun_actions {i : Instr} {size : Nat} (inTurn : ActsInTurn i size) {s : State} {a : Action}
    {done rest : List Action} (todo : s.todo = a :: done ++ rest) (ok : s.answersOk (askCount (a :: done))) :
    opRun (a :: done).length i s = .next (((a :: done).foldl State.perform s).proceed size rest) := by
  induction done generalizing s a with
  | nil =>
    simp only [List.length_singleton, opRun, inTurn s a rest todo, actStep_of_ok _ _ (answersOk_cons ok).1,
      List.foldl_cons, List.foldl_nil]
  | cons b done ih =>
    obtain ⟨answered, later⟩ := answersOk_cons ok
    have run := ih (s := (s.perform a).proceed size (b :: done ++ rest)) (State.proceed_todo ..) later
    rw [List.length_cons, opRun, inTurn s a _ todo, actStep_of_ok _ _ answered]
    exact run.trans (by rw [List.cons_append, State.proceed, foldl_perform_withTodo, proceed_withTodo]; rfl)

/-! ### What a list of actions that are all answered `ok` leaves -/

/-- The state after actions that were all answered `ok`: the lines as they drove them, their events, and the answers
they asked for taken. -/
def State.performed (s : State) (acts : List Action) : State :=
  { acts.foldl State.drive s with
    trace := s.trace ++ okEvents acts, script := s.script.drop (askCount acts), draws := s.draws + askCount acts }

/-- What one action that is no POLL and does not fail leaves. -/
theorem perform_eq_performed {s : State} {a : Action} (h : s.answer a ≠ .err) (notPoll : a ≠ .poll) :
    s.perform a = s.performed [a] := by
  rw [perform_of_ok h, answer_ok h notPoll]
  cases a with
  | poll => exact absurd rfl notPoll
  | setDC | setRST | xfer =>
    simp [State.performed, State.drive, State.record, State.takeDraw, okEvents, askCount, Action.asks]
  | delay | yield => rfl

/-- TRACE and the draws do not bear on how an action drives the lines. -/
theorem foldl_drive_update (s : State) (acts : List Action) (trace : List Event) (script : List Config.Draw)
    (draws : Nat) :
    acts.foldl State.drive { s with trace := trace, script := script, draws := draws } =
      { acts.foldl State.drive s with trace := trace, script := script, draws := draws } :=
  List.foldl_hom (fun t : State => { t with trace := trace, script := script, draws := draws })
    fun t a => by cases a <;> rfl

theorem performed_performed (s : State) (a : Action) (acts : List Action) :
    (s.performed [a]).performed acts = s.performed (a :: acts) := by
  simp only [State.performed, foldl_drive_update, List.foldl_cons, List.foldl_nil, List.append_assoc, List.drop_drop,
    askCount_cons a acts, Nat.add_assoc]
  rfl

/-- Performing actions that are no POLL and are all answered `ok`. -/
theorem foldl_perform_eq_performed {s : State} {acts : List Action} (noPoll : .poll ∉ acts)
    (ok : s.answersOk (askCount acts)) : acts.foldl State.perform s = s.performed acts := by
  induction acts generalizing s with
  | nil => simp [State.performed, okEvents, askCount]
  | cons a acts ih =>
    obtain ⟨notPoll, noPoll⟩ := List.ne_and_not_mem_of_not_mem_cons noPoll
    obtain ⟨answered, later⟩ := answersOk_cons ok
    rw [List.foldl_cons, ih noPoll later, perform_eq_performed answered notPoll.symm, performed_performed]

/-! ### The whole run of an op of the bus (R163 to R165, R223, R224) -/

/-- No payload takes no word (R11). -/
theorem ceil4_zero : ceil4 0 = 0 := rfl

/-- An op of the bus acts in turn, and is as long as its header and its payload (R106). -/
theorem actsInTurn_bus {i : Instr} (row : i.opcode ∈ busRows) : ActsInTurn i (1 + ceil4 i.payload.length) := by
  intro s a rest todo
  cases i with
  | endOp | reset | wait | setcfg => simp [Instr.opcode] at row
  | cmd => simp only [exec, execCmd, State.opStep, todo, Instr.payload, List.length_nil, ceil4_zero]
  | data => simp only [exec, execData, State.opStep, todo, Instr.payload]
  | cmdData => simp only [exec, execCmdData, State.opStep, todo, Instr.payload]
  | fill => simp only [exec, execFill, State.opStep, todo, Instr.payload, List.length_nil, ceil4_zero]
  | frame => simp only [exec, execFrame, todo, Instr.payload]

/-- A whole run of an op with actions other than WAIT, all answered `ok`: the decode stage, its actions, and stage 3. -/
theorem opRun_allOk {i : Instr} {size : Nat} (inTurn : ActsInTurn i size) {s : State} (todo : s.todo = [])
    (notWait : ∀ idle, i ≠ .wait idle) (acts : opActions s i ≠ [])
    (len : ∀ c p, i = .frame c p → p.length = s.frameLen.toNat) (ok : s.answersOk (askCount (opActions s i))) :
    opRun (1 + (opActions s i).length) i s = .next ((s.performed (opActions s i)).complete size) := by
  have noPoll : .poll ∉ opActions s i := fun mem => ((mem_opActions mem).2 notWait).1 rfl
  have begun := exec_begins todo notWait acts len
  obtain ⟨a, rest, list⟩ := List.exists_cons_of_ne_nil acts
  rw [list] at ok noPoll begun ⊢
  have run := opRun_actions (s := { s with todo := a :: rest }) (rest := []) inTurn (List.append_nil _).symm ok
  rw [foldl_perform_withTodo, proceed_withTodo, foldl_perform_eq_performed noPoll ok, State.proceed] at run
  simp only [Nat.add_comm 1, opRun, begun, run]

/-- A whole run of an op of the bus, all its actions answered `ok`. -/
theorem opRun_bus {i : Instr} (row : i.opcode ∈ busRows) {s : State} (todo : s.todo = [])
    (len : ∀ c p, i = .frame c p → p.length = s.frameLen.toNat) (ok : s.answersOk (askCount (opActions s i))) :
    opRun (1 + (opActions s i).length) i s =
      .next ((s.performed (opActions s i)).complete (1 + ceil4 i.payload.length)) := by
  have notWait : ∀ idle, i ≠ .wait idle := by rintro idle rfl; simp [Instr.opcode] at row
  have acts : opActions s i ≠ [] := by
    cases i with
    | endOp | setcfg => simp [Instr.opcode] at row
    | _ => exact List.cons_ne_nil _ _
  exact opRun_allOk (actsInTurn_bus row) todo notWait acts len ok

/-- A stream drives no line. -/
theorem foldl_drive_stream (s : State) (perByte : Bit) (gap : Word) (bytes : List Byte) :
    (stream perByte gap bytes).foldl State.drive s = s := by
  refine List.foldlRecOn (motive := (· = s)) _ _ rfl fun t same a mem => ?_
  rcases mem_stream mem with ⟨b, rest, rfl⟩ | rfl <;> exact same

/-- The stream of an op of the bus leaves DC at the level for data. -/
theorem foldl_drive_dataStream (s : State) (perByte : Bit) (gap : Word) (bytes : List Byte) :
    (Action.setDC .data :: wireActions perByte gap bytes).foldl State.drive s =
      { s with dcOut := 1 - s.params.dcCmdLevel, dcValid := 1 } := by
  rw [List.foldl_cons, ← stream_eq_wireActions, foldl_drive_stream]
  rfl

theorem opActions_data (s : State) (p : List Byte) :
    opActions s (.data p) = .setDC .data :: wireActions s.perByte s.byteGap p := by
  rw [← stream_eq_wireActions]
  rfl

theorem opActions_cmdData (s : State) (c : Byte) (p : List Byte) :
    opActions s (.cmdData c p) =
      [.setDC .cmd, .xfer [c]] ++ .setDC .data :: wireActions s.perByte s.byteGap p := by
  rw [← stream_eq_wireActions]
  rfl

/-- The whole run of an op of the bus whose actions drive DC to the level for data and no other line. -/
theorem opRun_sendsData {i : Instr} (row : i.opcode ∈ busRows) {s : State} (todo : s.todo = [])
    (len : ∀ c p, i = .frame c p → p.length = s.frameLen.toNat) {acts : List Action} (list : opActions s i = acts)
    (lines : acts.foldl State.drive s = { s with dcOut := 1 - s.params.dcCmdLevel, dcValid := 1 })
    (ok : s.answersOk (askCount acts)) :
    opRun (1 + acts.length) i s = .next { s with
      trace := s.trace ++ okEvents acts,
      dcOut := 1 - s.params.dcCmdLevel, dcValid := 1, pc := s.pc + BitVec.ofNat 32 (1 + ceil4 i.payload.length),
      engine := .run, todo := [], script := s.script.drop (askCount acts), draws := s.draws + askCount acts } := by
  subst list
  rw [opRun_bus row todo len ok, State.performed, lines]
  rfl

/-- Settles O22. -/
theorem streamFramesItsBytes : Obligations.StreamFramesItsBytes := stream_eq_wireActions

/-- Settles O24: SETDC(CMD) and one transaction, each taking an answer. -/
theorem cmdSendsItsByte : Obligations.CmdSendsItsByte := by
  intro s c todo ok
  have run := opRun_bus (i := .cmd c) (by simp [Instr.opcode]) todo (by simp) ok
  simp only [Instr.payload, List.length_nil, ceil4_zero] at run
  exact run

/-- Settles O25: of the actions of DATA, SETDC(DATA) alone drives a line. -/
theorem dataSendsItsPayload : Obligations.DataSendsItsPayload := fun s p todo =>
  opRun_sendsData (i := .data p) (by simp [Instr.opcode]) todo (by simp) (opActions_data s p)
    (foldl_drive_dataStream s ..)

/-- Settles O26: the SETDC(DATA) after the command byte drives DC last. -/
theorem cmdDataSendsBoth : Obligations.CmdDataSendsBoth := fun s c p todo =>
  opRun_sendsData (i := .cmdData c p) (by simp [Instr.opcode]) todo (by simp) (opActions_cmdData s c p)
    (foldl_drive_dataStream (s.drive (.setDC .cmd)) ..)

end Sys2Proof.Machine
end

section
/-! PROOFS. The reset-pulse timer (43_reset_timer.md): the run of an op of which one action fails, what RESET leaves,
and the frame of one engine step of it. -/

namespace Sys2Proof.Machine

/-! ### The event of one action of an op (R15) -/

@[simp] theorem actStep_trace (s : State) (n : Nat) (a : Action) (rest : List Action) :
    (s.actStep n a rest).trace = s.trace ++ [.act a (s.answer a)] := by
  simp only [actStep_frame s n a rest]

/-! ### A run of actions up to one that fails (R259) -/

/-- The draws still to come after a list of actions: those of before, but for the ones it took. -/
theorem drawAt_foldl_perform (s : State) (acts : List Action) (k : Nat) :
    (acts.foldl State.perform s).drawAt k = s.drawAt (askCount acts + k) := by
  induction acts generalizing s with
  | nil => exact congrArg s.drawAt (Nat.zero_add k).symm
  | cons a acts ih => rw [List.foldl_cons, ih, drawAt_perform, askCount_cons a acts, Nat.add_assoc]

/-- A run in two parts. -/
theorem opRun_add {m n : Nat} {i : Instr} {s t : State} (h : opRun m i s = .next t) :
    opRun (m + n) i s = opRun n i t := by
  induction m generalizing s with
  | zero => cases h; rw [Nat.zero_add]
  | succ m ih =>
    obtain ⟨u, hu⟩ := exec_total i s
    simp only [opRun, hu] at h
    simp only [Nat.succ_add, opRun, hu, ih h]

/-- The next actions of an op, none answered `err`, and after them one that is: it performs them and raises the fault of
the one that failed. -/
theorem opRun_actions_fail {i : Instr} {size : Nat} (inTurn : ActsInTurn i size) {s : State} {a : Action}
    {done rest : List Action} (todo : s.todo = done ++ a :: rest) (ok : s.answersOk (askCount done))
    (err : (done.foldl State.perform s).answer a = .err) :
    opRun (done.length + 1) i s = .next (((done.foldl State.perform s).perform a).raise a.failCode) := by
  have fails {t : State} (pending : t.todo = a :: rest) (err : t.answer a = .err) :
      opRun 1 i t = .next ((t.perform a).raise a.failCode) := by
    simp only [opRun, inTurn t a rest pending, actStep_of_err _ _ err]
  cases done with
  | nil => exact fails todo err
  | cons b done =>
    have last := fails (t := ((b :: done).foldl State.perform s).proceed size (a :: rest)) rfl err
    rw [opRun_add (opRun_actions inTurn todo ok), last, State.proceed, perform_withTodo]
    rfl

theorem performed_nil (s : State) : s.performed [] = s := by
  simp [State.performed, okEvents, askCount]

/-- A run of an op other than WAIT in which the actions `done` are answered `ok` and the next fails: the decode stage,
those actions, and the fault. -/
theorem opRun_fault {i : Instr} {size : Nat} (inTurn : ActsInTurn i size) {s : State} (todo : s.todo = [])
    (notWait : ∀ idle, i ≠ .wait idle) (len : ∀ c p, i = .frame c p → p.length = s.frameLen.toNat) {a : Action}
    {done rest : List Action} (list : opActions s i = done ++ a :: rest) (ok : s.answersOk (askCount done))
    (asks : a.asks = true) (fails : (s.drawAt (askCount done)).fails = true) :
    opRun (done.length + 2) i s =
      .next ((((s.performed done).ask a).record (.act a .err)).raise a.failCode) := by
  have noPoll : .poll ∉ done := fun mem =>
    ((mem_opActions (list ▸ List.mem_append_left _ mem)).2 notWait).1 rfl
  have err : (done.foldl State.perform s).answer a = .err :=
    answer_eq_err.mpr ⟨asks, by rw [← drawAt_zero, drawAt_foldl_perform]; exact fails⟩
  have begun := exec_begins todo notWait (by simp [list]) len
  have run := opRun_actions_fail (s := { s with todo := done ++ a :: rest }) inTurn rfl ok
    (by rw [foldl_perform_withTodo]; exact err)
  rw [foldl_perform_withTodo, perform_withTodo, perform_of_err err, foldl_perform_eq_performed noPoll ok] at run
  simp only [opRun, begun, list]
  exact run

/-! ### RESET (R181, R182) -/

/-- RESET acts in turn, and is three words long (R106). -/
theorem actsInTurn_reset (a b : Word) : ActsInTurn (.reset a b) 3 := fun _ _ _ todo =>
  exec_acts rfl (by simp [Instr.opcode]) todo

/-- RESET drives the reset line and delays; it does nothing else (R182). -/
theorem mem_resetActions {a b : Word} {x : Action} (h : x ∈ resetActions a b) :
    (∃ l, x = .setRST l) ∨ ∃ d, x = .delay d := by
  simp only [resetActions, List.mem_cons, List.not_mem_nil, or_false] at h
  rcases h with rfl | rfl | rfl | rfl <;> simp

/-- Settles O28: the run with all answers ok, and the two runs that end at a line write. -/
theorem resetPulsesTheLine : Obligations.ResetPulsesTheLine := by
  intro s a b todo
  have inTurn := actsInTurn_reset a b
  refine ⟨fun ok => ?pulse, fun fails => ?assertFails, fun asserted fails => ?releaseFails⟩
  case pulse =>
    have lines : (opActions s (.reset a b)).foldl State.drive s = { s with rstOut := 1 } := rfl
    have run := opRun_allOk inTurn todo (by simp) (List.cons_ne_nil _ _) (by simp) ok
    rw [State.performed, lines] at run
    exact run
  case assertFails =>
    have run := opRun_fault inTurn todo (by simp) (by simp) (done := []) rfl
      (by simp [askCount, State.answersOk]) rfl fails
    rw [performed_nil] at run
    exact run
  case releaseFails =>
    have ok : s.answersOk 1 := by simpa [State.answersOk] using asserted
    have lines : [Action.setRST 0, .delay a].foldl State.drive s = { s with rstOut := 0 } := rfl
    have run := opRun_fault inTurn todo (by simp) (by simp) (done := [.setRST 0, .delay a]) rfl ok rfl fails
    have events : s.trace ++ okEvents [.setRST 0, .delay a] ++ [Event.act (.setRST 1) .err] =
        s.trace ++ [Event.act (.setRST 0) .ok, .act (.delay a) .ok, .act (.setRST 1) .err] := List.append_assoc ..
    have answers : (s.script.drop 1).tail = s.script.drop 2 := List.tail_drop
    rw [State.performed, lines] at run
    rw [← events, ← answers]
    exact run

/-- Settles O29: the decode stage writes the progress, and every action after it is a SETRST or a DELAY. -/
theorem resetFrame : Obligations.ResetFrame := by
  intro a b s t inOp h
  cases todo : s.todo with
  | nil =>
    obtain rfl : { s with todo := resetActions a b } = t := Host.Outcome.next.inj
      ((exec_begins (i := .reset a b) todo (by simp) (List.cons_ne_nil _ _) (by simp)).symm.trans h)
    exact ⟨⟨rfl, rfl, rfl, rfl, rfl, rfl, rfl, rfl, fun _ => rfl, rfl, rfl, rfl, rfl⟩, rfl, rfl, rfl, rfl,
      fun _ => ⟨rfl, rfl⟩, fun _ _ mem => mem⟩
  | cons x rest =>
    cases (actsInTurn_reset a b s x rest todo).symm.trans h
    have own := mem_resetActions (inOp.subset (todo ▸ List.mem_cons_self))
    have notSelect : ∀ k, x ≠ .setDC k := by rintro k rfl; simp at own
    have notPoll : x ≠ .poll := by rintro rfl; simp at own
    have notXfer : ∀ bytes, x ≠ .xfer bytes := by rintro bytes rfl; simp at own
    obtain ⟨dcOut, dcValid⟩ := perform_dc (s := s) notSelect
    obtain ⟨polls, busySync⟩ := perform_polls (s := s) notPoll
    refine ⟨actStep_sameRest .., by simp [dcOut], by simp [dcValid], by simp [polls], by simp [busySync],
      actStep_faultRegisters, fun bytes r mem => ?_⟩
    simpa [(notXfer bytes).symm] using mem

end Sys2Proof.Machine
end

section
/-! PROOFS. The busy-line synchronizer (44_busy_sync.md): what each engine step of WAIT does, its busy loop and how it
ends, its frame, and what the host can do to a running engine. -/

namespace Sys2Proof.Machine

/-! ### One engine step of WAIT (R201, R203) -/

/-- The next action of a WAIT: what remains after it depends on its answer. -/
theorem exec_wait {s : State} {a : Action} {rest : List Action} (todo : s.todo = a :: rest) (idle : Bit) :
    exec (.wait idle) s = .next (s.actStep 1 a (waitRest idle s.pollInterval rest (s.answer a))) := by
  simp only [exec, execWait, todo]

/-- An answered poll of a WAIT: the answer is the level drawn. -/
theorem exec_wait_poll {s : State} (todo : s.todo = [.poll]) (answered : s.nextDraw.fails = false) (idle : Bit) :
    exec (.wait idle) s =
      .next ((s.perform .poll).proceed 1 (if s.nextDraw.level = idle then [] else [.yield s.pollInterval, .poll])) := by
  have level := answer_poll answered
  rw [exec_wait todo, actStep_of_ok _ _ (by simp [level]), level, waitRest]

/-- The idle level completes the WAIT. -/
theorem exec_wait_idle {s : State} {idle : Bit} (todo : s.todo = [.poll]) (answered : s.nextDraw.fails = false)
    (level : s.nextDraw.level = idle) : exec (.wait idle) s = .next { s with
      trace := s.trace ++ [.act .poll (.level idle)], busySync := idle, polls := satSucc s.polls,
      pc := s.pc + 1, engine := .run, todo := [], script := s.script.tail, draws := s.draws + 1 } := by
  rw [exec_wait_poll todo answered, if_pos level, perform_poll, answered, level]
  rfl

/-- The busy level goes on to a YIELD and another poll. -/
theorem exec_wait_busy {s : State} {idle : Bit} (todo : s.todo = [.poll]) (answered : s.nextDraw.fails = false)
    (level : s.nextDraw.level ≠ idle) : exec (.wait idle) s = .next { s with
      trace := s.trace ++ [.act .poll (.level s.nextDraw.level)], busySync := s.nextDraw.level,
      polls := satSucc s.polls, todo := [.yield s.pollInterval, .poll],
      script := s.script.tail, draws := s.draws + 1 } := by
  rw [exec_wait_poll todo answered, if_neg level, perform_poll, answered]
  rfl

/-- The YIELD never fails (D29), and goes on to the poll after it. -/
theorem exec_wait_yield {s : State} {d : Word} (todo : s.todo = [.yield d, .poll]) (idle : Bit) :
    exec (.wait idle) s = .next { s with trace := s.trace ++ [.act (.yield d) .ok], todo := [.poll] } := by
  rw [exec_wait todo, actStep_of_ok _ _ (by simp [State.answer]), perform_yield]
  rfl

/-- Settles O30. -/
theorem waitPolls : Obligations.WaitPolls := fun _ idle =>
  ⟨exec_wait_idle, exec_wait_busy, fun _ todo => exec_wait_yield todo idle⟩

/-! ### The busy loop of WAIT (R203, R204) -/

/-- The state after `n` busy reads of a WAIT, each with its YIELD: before the next poll again. -/
def State.afterBusy (s : State) (idle : Bit) (n : Nat) : State :=
  { s with
    trace := s.trace ++ busyEvents idle s.pollInterval n, polls := satSucc^[n] s.polls,
    busySync := if n = 0 then s.busySync else 1 - idle, script := s.script.drop n, draws := s.draws + n }

theorem afterBusy_zero (s : State) (idle : Bit) : s.afterBusy idle 0 = s := by
  simp [State.afterBusy]

/-- The draws still to come after `n` busy reads: those of before, but for the `n` taken. -/
theorem drawAt_afterBusy (s : State) (idle : Bit) (n k : Nat) : (s.afterBusy idle n).drawAt k = s.drawAt (n + k) := by
  simp [State.drawAt, State.afterBusy, Nat.add_assoc]

theorem nextDraw_afterBusy (s : State) (idle : Bit) (n : Nat) : (s.afterBusy idle n).nextDraw = s.drawAt n := by
  rw [← drawAt_zero, drawAt_afterBusy, Nat.add_zero]

/-- The busy level is the one that is not the idle level. -/
theorem level_of_ne_idle {l idle : Bit} (h : l ≠ idle) : l = 1 - idle := by
  revert l idle
  decide

/-- The next `n` polls of a WAIT read the busy level. -/
abbrev State.busyFor (s : State) (idle : Bit) (n : Nat) : Prop :=
  ∀ k < n, (s.drawAt k).fails = false ∧ (s.drawAt k).level ≠ idle

theorem opRun_one (i : Instr) (s : State) : opRun 1 i s = exec i s := by
  obtain ⟨t, ht⟩ := exec_total i s
  simp only [opRun, ht]

/-- One busy read of a WAIT: a poll and a YIELD, two engine steps. -/
theorem opRun_busyRead {s : State} {idle : Bit} (todo : s.todo = [.poll]) (answered : s.nextDraw.fails = false)
    (level : s.nextDraw.level ≠ idle) : opRun 2 (.wait idle) s = .next (s.afterBusy idle 1) := by
  have polled := (opRun_one _ s).trans (exec_wait_busy todo answered level)
  rw [opRun_add (n := 1) polled, opRun_one, level_of_ne_idle level]
  refine (exec_wait_yield (d := s.pollInterval) rfl idle).trans ?_
  simp [State.afterBusy, busyEvents, todo]

theorem afterBusy_succ (s : State) (idle : Bit) (n : Nat) :
    (s.afterBusy idle n).afterBusy idle 1 = s.afterBusy idle (n + 1) := by
  simp [State.afterBusy, busyEvents_succ, Function.iterate_succ_apply', Nat.add_assoc]

/-- The busy loop: two engine steps for each busy read. -/
theorem opRun_afterBusy {s : State} {idle : Bit} {n : Nat} (todo : s.todo = [.poll]) (busy : s.busyFor idle n) :
    opRun (2 * n) (.wait idle) s = .next (s.afterBusy idle n) := by
  induction n with
  | zero => rw [afterBusy_zero]; rfl
  | succ n ih =>
    obtain ⟨answered, level⟩ := busy n n.lt_succ_self
    rw [← nextDraw_afterBusy s idle n] at answered level
    rw [Nat.mul_succ, opRun_add (ih fun k lt => busy k (lt.trans n.lt_succ_self)),
      opRun_busyRead (s := s.afterBusy idle n) todo answered level, afterBusy_succ]

/-- The decode stage of a WAIT and `n` busy reads. -/
theorem opRun_wait_busy {s : State} {idle : Bit} {n : Nat} (todo : s.todo = []) (busy : s.busyFor idle n) :
    opRun (2 * n + 1) (.wait idle) s = .next (s.beginWait.afterBusy idle n) := by
  simp only [opRun, exec_beginsWait todo]
  exact opRun_afterBusy rfl busy

/-- The draw of the poll after those busy reads. -/
theorem nextDraw_beginWait_afterBusy {s : State} (idle : Bit) (n : Nat) :
    (s.beginWait.afterBusy idle n).nextDraw = s.drawAt n :=
  nextDraw_afterBusy s.beginWait idle n

/-- However many polls read the busy level, the WAIT is in progress at every step before and after them (R204). -/
theorem opRun_wait_pending {s : State} {idle : Bit} {n m : Nat} (todo : s.todo = []) (busy : s.busyFor idle n)
    (begun : 1 ≤ m) (within : m ≤ 2 * n + 1) :
    ∃ t, opRun m (.wait idle) s = .next t ∧ t.engine = .wait ∧ t.pc = s.pc ∧ t.todo ≠ [] := by
  obtain ⟨j, rfl | rfl⟩ : ∃ j, m = 2 * j + 1 ∨ m = 2 * j + 1 + 1 := ⟨(m - 1) / 2, by omega⟩
  · exact ⟨_, opRun_wait_busy todo fun k lt => busy k (by omega), rfl, rfl, List.cons_ne_nil _ _⟩
  · obtain ⟨answered, level⟩ := busy j (by omega)
    rw [← nextDraw_beginWait_afterBusy idle] at answered level
    rw [opRun_add (opRun_wait_busy todo fun k lt => busy k (by omega)), opRun_one, exec_wait_busy rfl answered level]
    exact ⟨_, rfl, rfl, rfl, List.cons_ne_nil _ _⟩

/-- Settles O32. -/
theorem waitHasNoTimeout : Obligations.WaitHasNoTimeout := fun _ _ _ todo busy _ => opRun_wait_pending todo busy

/-- POLLS counts exactly up to its limit (R36). -/
theorem iterate_satSucc_zero {n : Nat} (h : n ≤ 0xFFFFFFFF) : satSucc^[n] 0#32 = BitVec.ofNat 32 n := by
  induction n with
  | zero => rfl
  | succ n ih =>
    have below : BitVec.ofNat 32 n ≠ 0xFFFFFFFF := by bv_omega
    rw [Function.iterate_succ_apply', ih (by omega), satSucc, if_neg below, BitVec.ofNat_add]
    rfl

/-- Settles O31: the busy loop, and the poll after it that reads the idle level. -/
theorem waitTakesOnePollMore : Obligations.WaitTakesOnePollMore := by
  intro s idle n todo limit answered busyLevel idleLevel
  have busy : s.busyFor idle n := fun k lt => ⟨answered k lt.le, busyLevel k lt⟩
  have answered := answered n le_rfl
  rw [← nextDraw_beginWait_afterBusy idle] at answered idleLevel
  have count : satSucc (satSucc^[n] 0#32) = BitVec.ofNat 32 (n + 1) := by
    rw [← iterate_satSucc_zero limit, Function.iterate_succ_apply']
  refine ⟨?_, fun m begun within => ?_⟩
  · rw [opRun_add (n := 1) (opRun_wait_busy todo busy), opRun_one, exec_wait_idle rfl answered idleLevel]
    simp [State.afterBusy, State.beginWait, waitEvents, count, Nat.add_assoc]
  · obtain ⟨t, run, wait, pc, -⟩ := opRun_wait_pending todo busy begun within
    exact ⟨t, run, wait, pc⟩

/-! ### The frame of WAIT (R207) -/

/-- Settles O33: the decode stage writes STATE, POLLS and the progress, and every action after it is a POLL or a
YIELD. -/
theorem waitFrame : Obligations.WaitFrame := by
  intro idle s t pending h
  cases todo : s.todo with
  | nil =>
    obtain rfl : s.beginWait = t := Host.Outcome.next.inj ((exec_beginsWait todo idle).symm.trans h)
    exact ⟨⟨rfl, rfl, rfl, rfl, rfl, rfl, rfl, rfl, fun _ => rfl, rfl, rfl, rfl, rfl⟩, rfl, rfl, rfl,
      fun _ => ⟨rfl, rfl⟩, fun _ _ mem => mem⟩
  | cons a rest =>
    cases (exec_wait todo idle).symm.trans h
    have own : a = .poll ∨ ∃ d, a = .yield d := by
      rw [todo] at pending
      rcases pending with none | poll | ⟨d, yield⟩
      · exact absurd none (List.cons_ne_nil _ _)
      · exact .inl (List.cons.inj poll).1
      · exact .inr ⟨d, (List.cons.inj yield).1⟩
    have notSelect : ∀ k, a ≠ .setDC k := by rintro k rfl; simp at own
    have notReset : ∀ l, a ≠ .setRST l := by rintro l rfl; simp at own
    have notXfer : ∀ bytes, a ≠ .xfer bytes := by rintro bytes rfl; simp at own
    obtain ⟨dcOut, dcValid⟩ := perform_dc (s := s) notSelect
    refine ⟨actStep_sameRest .., by simp [dcOut], by simp [dcValid], by simp [perform_rstOut notReset],
      actStep_faultRegisters, fun bytes r mem => ?_⟩
    simpa [(notXfer bytes).symm] using mem

/-! ### The host and a running engine (R53, R74, R140, R205) -/

/-- Settles O57: of the writes a running engine lets through, only an SRESET reaches the engine. -/
theorem onlySoftResetEndsARun : Obligations.OnlySoftResetEndsARun := by
  intro s r t a run turn h noReset
  have reset := noReset_of_hostTurn turn noReset
  rw [step_hostTurn turn] at h
  obtain ⟨rest, -, rfl⟩ := turn
  rcases hostAccess_cases h with ⟨w, o, -, rfl⟩ | ⟨v, ha, asked, -⟩ | ⟨v, -, -, -, stop, -⟩ | ⟨v, -, rfl⟩ |
    ⟨o, v, -, -, -, stop, -⟩ | rfl
  · simp
  · exact absurd asked (reset v ha)
  · exact absurd (run.symm.trans stop) (by decide)
  · simp
  · exact absurd (run.symm.trans stop) (by decide)
  · simp

end Sys2Proof.Machine
end

section
/-! PROOFS. The frame-burst writer (45_frame_writer.md): the layout of an expansion, the transform, what FILL and FRAME
leave, and the two ways to clear a display. -/

namespace Sys2Proof.Machine

/-! ### Expansion and transform (R220 to R222) -/

/-- The two symbols of an output byte, as R221 lays them out. -/
theorem symPair_eq (hi lo : Bool) :
    symPair hi lo = (if hi then 0x30 else 0x00) ||| (if lo then 0x03 else 0x00) := by
  cases hi <;> cases lo <;> rfl

theorem expand1_getElem? (b : Byte) {j : Nat} (h : j < 4) :
    (expand1 b)[j]? = some (symPair (b.getLsbD (7 - 2 * j)) (b.getLsbD (6 - 2 * j))) := by
  match j with
  | 0 | 1 | 2 | 3 => rfl

/-- Byte `j` of the four that stand for byte `k`. -/
theorem expandBytes_getElem? (p : List Byte) {k j : Nat} (h : k < p.length) (lt : j < 4) :
    (expandBytes p)[4 * k + j]? = (expand1 p[k])[j]? := by
  induction p generalizing k with
  | nil => exact absurd h (Nat.not_lt_zero k)
  | cons b p ih =>
    have four : (expand1 b).length = 4 := rfl
    cases k with
    | zero => rw [Nat.mul_zero, Nat.zero_add]; exact List.getElem?_append_left (four ▸ lt)
    | succ k =>
      have past : 4 * (k + 1) + j = (expand1 b).length + (4 * k + j) := by rw [four]; omega
      rw [past, expandBytes, List.flatMap_cons, List.getElem?_append_right (Nat.le_add_right _ _),
        Nat.add_sub_cancel_left]
      exact ih (Nat.lt_of_succ_lt_succ h)

/-- Settles O34. -/
theorem expansionLaysOutSymbols : Obligations.ExpansionLaysOutSymbols := fun p =>
  ⟨expandBytes_length p, fun k h j lt => by rw [expandBytes_getElem? p h lt, expand1_getElem? _ lt, symPair_eq]⟩

/-- Settles O35: FILL uses `tx` alone. -/
theorem transformExpandsThenInverts : Obligations.TransformExpandsThenInverts := by
  refine ⟨fun invert expand p => ?_, fun _ _ _ _ => rfl⟩
  simp only [transform, ← tx_eq_xor]

/-- A buffer of one repeated byte that is not expanded stays one of one repeated byte (R226). -/
theorem transform_replicate (invert : Bit) (n : Nat) (w : Byte) :
    transform invert 0 (List.replicate n w) = List.replicate n (tx invert w) :=
  List.map_replicate

/-! ### The whole runs of FILL and FRAME (R223 to R225) -/

theorem opActions_fill (s : State) (v : Byte) (n : BitVec 20) :
    opActions s (.fill v n) = .setDC .data :: wireActions s.perByte s.byteGap
      (List.replicate n.toNat (if s.invert = 1 then v ^^^ 0xFF else v)) := by
  rw [← stream_eq_wireActions, ← tx_eq_xor]
  rfl

theorem opActions_frame (s : State) (c : Byte) (p : List Byte) :
    opActions s (.frame c p) = [.setDC .cmd, .xfer [c], .setDC .data] ++
      wireActions s.perByte s.byteGap (transform s.invert s.expand p) := by
  rw [← stream_eq_wireActions]
  rfl

/-- Settles O36: of the actions of FILL, SETDC(DATA) alone drives a line. -/
theorem fillRepeatsItsByte : Obligations.FillRepeatsItsByte := by
  intro s v n todo acts ok
  have run := opRun_sendsData (i := .fill v n) (by simp [Instr.opcode]) todo (by simp) (opActions_fill s v n)
    (foldl_drive_dataStream s ..) ok
  simp only [Instr.payload, List.length_nil, ceil4_zero] at run
  exact run

/-- Settles O37: the SETDC(DATA) after the command byte drives DC last. -/
theorem frameSendsItsBuffer : Obligations.FrameSendsItsBuffer := fun s c p todo len =>
  opRun_sendsData (i := .frame c p) (by simp [Instr.opcode]) todo (by rintro _ _ ⟨⟩; exact len)
    (opActions_frame s c p) (foldl_drive_dataStream (s.drive (.setDC .cmd)) ..)

/-- Settles O38: the length check comes before any action. -/
theorem frameLengthMismatchFailsClosed : Obligations.FrameLengthMismatchFailsClosed := by
  intro s c p todo mismatch
  simp only [exec, execFrame, todo, State.beginFrame, if_neg mismatch, State.raise]

/-! ### CMD and FILL against FRAME (R226) -/

/-- A stream tells which bytes it sends. -/
theorem stream_inj {perByte : Bit} {gap : Word} {bytes bytes' : List Byte} :
    stream perByte gap bytes = stream perByte gap bytes' ↔ bytes = bytes' :=
  (Function.LeftInverse.injective (stream_sent perByte gap)).eq_iff

/-- The actions of a FRAME are those of a CMD and a FILL exactly where the two buffers agree. -/
theorem frame_actions_eq_cmd_fill (s : State) (c w : Byte) (n : BitVec 20) (p : List Byte) :
    opActions s (.frame c p) = opActions s (.cmd c) ++ opActions s (.fill w n) ↔
      transform s.invert s.expand p = List.replicate n.toNat (tx s.invert w) := by
  simp only [opActions, frameActions, fillActions, List.append_cancel_left_eq, List.cons.injEq, true_and, stream_inj]

theorem askCount_append (acts rest : List Action) : askCount (acts ++ rest) = askCount acts + askCount rest :=
  List.countP_append

theorem drawAt_performed (s : State) (acts : List Action) (k : Nat) :
    (s.performed acts).drawAt k = s.drawAt (askCount acts + k) := by
  simp [State.drawAt, State.performed, List.getD_eq_getElem?_getD, Nat.add_assoc]

/-- Where no answer to a list of actions is `err`, none is to its first part nor, after that, to its rest. -/
theorem answersOk_append {s : State} {acts rest : List Action} (ok : s.answersOk (askCount (acts ++ rest))) :
    s.answersOk (askCount acts) ∧ (s.performed acts).answersOk (askCount rest) := by
  rw [askCount_append] at ok
  refine ⟨fun k lt => ok k (Nat.lt_add_right _ lt), fun k lt => ?_⟩
  rw [drawAt_performed]
  exact ok _ (Nat.add_lt_add_left lt _)

theorem okEvents_append (acts rest : List Action) : okEvents (acts ++ rest) = okEvents acts ++ okEvents rest :=
  List.map_append

/-- Settles O39: a stream tells its bytes, and the events of the CMD and then of the FILL are those of the FRAME. -/
theorem clearAndFrameLeaveTheSameTrace : Obligations.ClearAndFrameLeaveTheSameTrace := by
  intro s c w n p
  simp only [← tx_eq_xor]
  refine ⟨frame_actions_eq_cmd_fill s c w n p, ?repeated, fun same todo len ok => ?run⟩
  case repeated =>
    rintro notExpanded rfl
    rw [notExpanded, transform_replicate]
  case run =>
    have acts := (frame_actions_eq_cmd_fill s c w n p).mpr same
    have frame := opRun_bus (i := .frame c p) (by simp [Instr.opcode]) todo (by rintro _ _ ⟨⟩; exact len) ok
    obtain ⟨cmdOk, fillOk⟩ := answersOk_append (acts ▸ ok)
    have cmd := opRun_bus (i := .cmd c) (by simp [Instr.opcode]) todo (by simp) cmdOk
    simp only [Instr.payload, List.length_nil, ceil4_zero] at cmd
    have fill := opRun_bus (i := .fill w n) (s := (s.performed (opActions s (.cmd c))).complete 1)
      (by simp [Instr.opcode]) rfl (by simp) fillOk
    refine ⟨_, _, _, frame, cmd, fill, rfl, rfl, rfl, ?_⟩
    show s.trace ++ okEvents (opActions s (.frame c p)) =
      s.trace ++ okEvents (opActions s (.cmd c)) ++ okEvents (opActions s (.fill w n))
    rw [acts, okEvents_append, List.append_assoc]

end Sys2Proof.Machine
end

section
/-! PROOFS. Faults (60_exceptions.md): the overrun of the op memory, the op that ends at a failed action, what TRACE
holds by then, and that FAULT stays. -/

namespace Sys2Proof.Machine

/-! ### STREAM_OVERRUN (R256) -/

/-- Where PC is at or past the end of op memory, decode finds no header (R111). -/
theorem fetch_headerPastEnd {r : State} (past : r.params.opmemWords ≤ r.pc.toNat) :
    r.fetch = .error .headerPastEnd := by
  have none : r.wordsLeft = 0 := Nat.sub_eq_zero_of_le past
  rw [State.fetch, none, decode_headerPastEnd]

/-- Where PC is inside the op memory and holds a legal header whose words pass its end, decode finds them missing
(R111). -/
theorem fetch_wordsPastEnd {r : State} {o : Opcode} (inside : r.pc.toNat < r.params.opmemWords)
    (legal : r.opWord r.pc.toNat &&& o.mask = o.pattern)
    (past : r.params.opmemWords < r.pc.toNat + o.size (headerCount (r.opWord r.pc.toNat))) :
    r.fetch = .error .wordsPastEnd := by
  obtain ⟨opc, clear⟩ := (match_iff o _).mp legal
  have short : r.wordsLeft < o.size (headerCount (r.opWord r.pc.toNat)) :=
    Nat.sub_lt_left_of_lt_add inside.le past
  exact decode_wordsPastEnd (wordsLeft_ne_zero inside) opc clear short

/-- Settles O11: past the end there is no header to look at, and inside the header is legal but its words are
missing. -/
theorem overrunFaults : Obligations.OverrunFaults := by
  intro s r turn run overrun
  by_cases inside : r.pc.toNat < r.params.opmemWords
  · obtain ⟨o, legal, past⟩ := overrun.resolve_left inside.not_ge
    exact step_of_fetch_error turn run (fetch_wordsPastEnd inside legal past)
  · exact step_of_fetch_error turn run (fetch_headerPastEnd (not_lt.mp inside))

/-! ### An op ends at its first failed action (R252, R253, R259) -/

/-- The next action of an op that has actions ends the op where it fails, WAIT included. -/
theorem exec_of_err {i : Instr} {s : State} {a : Action} {rest : List Action} (wf : i.wellFormed = true)
    (row : i.opcode ∈ [Opcode.reset, .cmd, .data, .cmdData, .fill, .frame, .wait]) (todo : s.todo = a :: rest)
    (err : s.answer a = .err) : exec i s = .next ((s.perform a).raise a.failCode) := by
  have rows : i.opcode ∈ [Opcode.reset, .cmd, .data, .cmdData, .fill, .frame] ++ [.wait] := row
  rcases List.mem_append.mp rows with acting | waiting
  · rw [exec_acts wf acting todo, actStep_of_err _ _ err]
  · cases i with
    | wait idle => rw [exec_wait todo, actStep_of_err _ _ err]
    | _ => simp [Instr.opcode] at waiting

/-- POLLS + 1 and its limit, spelled as R36 does. -/
theorem satSucc_eq (v : Word) : satSucc v = if v ≠ 0xFFFFFFFF then v + 1 else v := (ite_not ..).symm

/-- Settles O18: what each action that asks for an answer leaves where it fails; DELAY and YIELD ask for none. -/
theorem failedActionRaisesItsFault : Obligations.FailedActionRaisesItsFault := by
  intro i s a rest wf row todo asks fails
  rw [exec_of_err wf row todo (answer_eq_err.mpr ⟨asks, fails⟩)]
  cases a with
  | delay | yield => simp [Action.asks] at asks
  | setDC | setRST | xfer | poll =>
    simp [perform_setDC, perform_setRST, perform_xfer, perform_poll, fails, State.raise, Action.failCode, satSucc_eq]

/-! ### Faults are precise (R149, R258, R259) -/

/-- No action moves PC. -/
@[simp] theorem performed_pc (s : State) (acts : List Action) : (s.performed acts).pc = s.pc :=
  List.foldlRecOn (motive := fun t : State => t.pc = s.pc) _ _ rfl fun t same a _ => (State.drive_pc t a).trans same

@[simp] theorem performed_trace (s : State) (acts : List Action) :
    (s.performed acts).trace = s.trace ++ okEvents acts := rfl

/-- An op other than WAIT that has actions performs its progress one action a step. -/
theorem actsInTurn_of_opActions {s : State} {i : Instr} (wf : i.wellFormed = true) (notWait : ∀ idle, i ≠ .wait idle)
    (acts : opActions s i ≠ []) : ActsInTurn i i.size := by
  have row : i.opcode ∈ [Opcode.reset, .cmd, .data, .cmdData, .fill, .frame] := by
    cases i with
    | endOp | setcfg => exact absurd rfl acts
    | wait idle => exact absurd rfl (notWait idle)
    | _ => simp [Instr.opcode]
  exact fun _ _ _ todo => exec_acts wf row todo

/-- A WAIT whose poll fails after `n` busy reads: the decode stage, two engine steps for each busy read, and the
fault. -/
theorem opRun_wait_fault {s : State} {idle : Bit} {n : Nat} (todo : s.todo = []) (busy : s.busyFor idle n)
    (fails : (s.drawAt n).fails = true) :
    opRun (2 * n + 2) (.wait idle) s =
      .next (((s.beginWait.afterBusy idle n).perform .poll).raise .pinError) := by
  have err : (s.beginWait.afterBusy idle n).answer .poll = .err :=
    answer_eq_err.mpr ⟨rfl, by rw [nextDraw_beginWait_afterBusy, fails]⟩
  rw [opRun_add (n := 1) (opRun_wait_busy todo busy), opRun_one, exec_wait rfl, actStep_of_err _ _ err]
  rfl

/-- What that fault leaves: POLLS counts the failed read, and TRACE ends with it. -/
theorem wait_fault_leaves {s : State} {idle : Bit} {n : Nat} (fails : (s.drawAt n).fails = true) :
    let t := ((s.beginWait.afterBusy idle n).perform .poll).raise .pinError
    t.pc = s.pc ∧ t.errPc = s.pc ∧ t.polls = satSucc^[n + 1] 0#32 ∧
      t.trace = s.trace ++ busyEvents idle s.pollInterval n ++ [.act .poll .err] := by
  have draw := (nextDraw_beginWait_afterBusy (s := s) idle n).symm ▸ fails
  rw [perform_poll, draw, Function.iterate_succ_apply']
  exact ⟨rfl, rfl, rfl, rfl⟩

/-- Settles O19: an op other than WAIT is a list of actions, of which the first `k` are answered; the first poll of a
WAIT is the one after no busy read. -/
theorem faultsArePrecise : Obligations.FaultsArePrecise := by
  refine ⟨fun i s k h todo wf len ok asks fails => ?first, fun s idle n todo busy fails => ?later⟩
  case first =>
    by_cases wait : ∃ idle, i = .wait idle
    · obtain ⟨idle, rfl⟩ := wait
      obtain rfl : k = 0 := Nat.lt_one_iff.mp h
      have failsFirst : (s.drawAt 0).fails = true := fails
      obtain ⟨pc, errPc, -, trace⟩ := wait_fault_leaves (idle := idle) failsFirst
      exact ⟨_, opRun_wait_fault todo (fun _ lt => absurd lt (Nat.not_lt_zero _)) failsFirst, rfl, rfl, rfl,
        errPc, pc, trace⟩
    · have notWait : ∀ idle, i ≠ .wait idle := not_exists.mp wait
      have inTurn := actsInTurn_of_opActions wf notWait (List.ne_nil_of_length_pos (Nat.zero_lt_of_lt h))
      have list : opActions s i = (opActions s i).take k ++ (opActions s i)[k] :: (opActions s i).drop (k + 1) := by
        rw [← List.drop_eq_getElem_cons h, List.take_append_drop]
      have run := opRun_fault inTurn todo notWait len list ok asks fails
      rw [List.length_take_of_le h.le] at run
      exact ⟨_, run, by simp⟩
  case later =>
    obtain ⟨pc, errPc, polls, trace⟩ := wait_fault_leaves (idle := idle) fails
    exact ⟨_, opRun_wait_fault todo busy fails, rfl, rfl, rfl, errPc, pc,
      fun limit => polls.trans (iterate_satSucc_zero limit), trace⟩

/-! ### FAULT is sticky (R261, R262) -/

/-- What R261 keeps in FAULT: STATE, ERR_CODE, ERR_PC and PC, and TRACE with them (R262). -/
def SameFault (s t : State) : Prop :=
  t.engine = s.engine ∧ t.errCode = s.errCode ∧ t.errPc = s.errPc ∧ t.pc = s.pc ∧ t.trace = s.trace

/-- An engine that is not running performs nothing (R141), so nothing can fault (R262). -/
theorem engineStep_of_stopped {s t : State} (stop : s.running = false) (h : engineStep s = .next t) : t = s := by
  rw [engineStep, stop] at h
  exact (Host.Outcome.next.inj h).symm

/-- No access of the host but a START or an SRESET touches STATE, the fault registers, PC or TRACE (R53, R261). -/
theorem hostAccess_sameFault {s t : State} {a : HostAccess} (h : hostAccess a s = .next t)
    (quiet : ∀ v, a = .write .word 0x000 v → v.getLsbD 0 = false ∧ v.getLsbD 1 = false) : SameFault s t := by
  rcases hostAccess_cases h with ⟨w, o, -, rfl⟩ | ⟨v, ctrl, reset, -⟩ | ⟨v, ctrl, -, start, -, -⟩ | ⟨v, -, rfl⟩ |
    ⟨o, v, -, -, -, -, rfl⟩ | rfl
  · simp [SameFault]
  · exact absurd ((quiet v ctrl).2.symm.trans reset) (by decide)
  · exact absurd ((quiet v ctrl).1.symm.trans start) (by decide)
  · exact ⟨rfl, rfl, rfl, rfl, rfl⟩
  · exact ⟨rfl, rfl, rfl, rfl, rfl⟩
  · exact ⟨rfl, rfl, rfl, rfl, rfl⟩

/-- Settles O56: one case each turn. -/
theorem faultIsSticky : Obligations.FaultIsSticky := by
  intro s t fault h noPowerOn quiet
  have same : SameFault s t := by
    rcases step_cases h with ⟨r, turn, h⟩ | ⟨a, r, turn, h⟩ | ⟨rest, on, -⟩
    · have stop : r.running = false := by
        rw [engineTurn_same turn]
        exact not_running_iff.mpr (.inr (.inr fault))
      rw [engineStep_of_stopped stop h, engineTurn_same turn]
      exact ⟨rfl, rfl, rfl, rfl, rfl⟩
    · obtain ⟨rest, next, rfl⟩ := turn
      exact hostAccess_sameFault (s := { s with schedule := rest }) h fun v ctrl => quiet v rest (ctrl ▸ next)
    · exact absurd on (noPowerOn rest)
  obtain ⟨engine, registers⟩ := same
  exact ⟨engine.trans fault, registers⟩

end Sys2Proof.Machine
end

section
/-! PROOFS. Resets and hazards (70_reset_and_hazards.md): how many actions an op has, that every op but WAIT ends, and
what a power-on reset leaves. -/

namespace Sys2Proof.Machine

/-! ### How many actions an op has (R103, R162) -/

/-- A stream of at most four times as many bytes as an op can carry, as an expansion makes them, in any framing. -/
theorem stream_length_bound (perByte : Bit) (gap : Word) {bytes : List Byte}
    (short : bytes.length ≤ 4 * Config.countMax) : (stream perByte gap bytes).length + 1 ≤ 8 * Config.countMax := by
  have twice := stream_length perByte gap bytes
  simp only [Config.countMax] at short ⊢
  omega

/-- A FRAME has the most: the command, the select of data and an expanded stream with its gaps. -/
theorem opActions_length_bound (s : State) {i : Instr} (wf : i.wellFormed = true) :
    (opActions s i).length ≤ 2 + 8 * Config.countMax := by
  have payload : i.payload.length ≤ Config.countMax := of_decide_eq_true wf
  have short : i.payload.length ≤ 4 * Config.countMax := by omega
  have sent {bytes : List Byte} := stream_length_bound s.perByte s.byteGap (bytes := bytes)
  cases i with
  | endOp | setcfg => exact Nat.zero_le _
  | reset | cmd | wait => simp [opActions, resetActions, cmdActions, Config.countMax]
  | data p =>
    have := sent (bytes := p) short
    simp only [opActions, dataActions, List.length_cons]
    omega
  | cmdData c p =>
    have := sent (bytes := p) short
    simp only [opActions, cmdDataActions, cmdActions, dataActions, List.length_append, List.length_cons,
      List.length_nil]
    omega
  | fill v n =>
    have count : (List.replicate n.toNat (tx s.invert v)).length ≤ 4 * Config.countMax := by
      simp only [List.length_replicate, Config.countMax]
      omega
    have := sent count
    simp only [opActions, fillActions, List.length_cons]
    omega
  | frame c p =>
    have := sent ((transform_length_le s.invert s.expand p).trans (Nat.mul_le_mul_left 4 payload))
    simp only [opActions, frameActions, cmdActions, List.length_append, List.length_cons, List.length_nil]
    omega

/-! ### Every op but WAIT ends (R309) -/

/-- The op `i` that was at PC in `s` has ended in `t`: in FAULT, stopped, or completed (R141, R145, R259). -/
def Ended (i : Instr) (s t : State) : Prop :=
  t.todo = [] ∧ (t.engine = .fault ∧ t.pc = s.pc ∨ t.engine = .done ∧ t.pc = s.pc ∨
    t.engine = .run ∧ t.pc = s.pc + BitVec.ofNat 32 i.size)

/-- An op that performs its progress one action a step ends, whatever the answers, after no more steps than it has
actions left: each action fails, is the last, or leaves one less. -/
theorem opRun_ends {i : Instr} (inTurn : ActsInTurn i i.size) {acts : List Action} (pending : acts ≠ []) {s : State}
    (todo : s.todo = acts) : ∃ n t, n ≤ acts.length ∧ opRun n i s = .next t ∧ Ended i s t := by
  induction acts generalizing s with
  | nil => exact absurd rfl pending
  | cons a rest ih =>
    have first : opRun 1 i s = .next (s.actStep i.size a rest) := (opRun_one i s).trans (inTurn s a rest todo)
    by_cases err : s.answer a = .err
    · rw [actStep_of_err _ _ err] at first
      exact ⟨1, _, by simp, first, rfl, .inl ⟨rfl, by simp⟩⟩
    · rw [actStep_of_ok _ _ err] at first
      cases rest with
      | nil => exact ⟨1, _, by simp, first, rfl, .inr (.inr ⟨rfl, by simp [State.proceed]⟩)⟩
      | cons b rest =>
        have pc : ((s.perform a).proceed i.size (b :: rest)).pc = s.pc := by simp [State.proceed]
        obtain ⟨n, t, le, run, ended⟩ := ih (List.cons_ne_nil b rest) (State.proceed_todo ..)
        rw [Ended, pc] at ended
        exact ⟨1 + n, t, by simp only [List.length_cons] at le ⊢; omega, (opRun_add first).trans run, ended⟩

/-- Settles O60: one case each way a decode stage can go, and after it the actions it set up. -/
theorem onlyWaitCanHang : Obligations.OnlyWaitCanHang := by
  intro i s todo wf notWait
  obtain ⟨t, decoded⟩ := exec_total i s
  have first : opRun 1 i s = .next t := (opRun_one i s).trans decoded
  have one : 1 ≤ 3 + 8 * Config.countMax := by omega
  cases exec_cases wf decoded with
  | stops => exact ⟨1, _, one, first, rfl, .inr (.inl ⟨rfl, rfl⟩)⟩
  | configures _ _ _ _ _ _ setcfg =>
    subst setcfg
    exact ⟨1, _, one, first, rfl, .inr (.inr ⟨rfl, rfl⟩)⟩
  | rejects => exact ⟨1, _, one, first, rfl, .inl ⟨rfl, rfl⟩⟩
  | begins _ _ acts =>
    obtain ⟨n, u, le, run, ended⟩ := opRun_ends (actsInTurn_of_opActions wf notWait acts) acts
      (s := { s with todo := opActions s i }) rfl
    have bound := opActions_length_bound s wf
    exact ⟨1 + n, u, by omega, (opRun_add first).trans run, ended⟩
  | waits idle _ wait => exact absurd wait (notWait idle)
  | acts a rest pending => exact absurd (todo.symm.trans pending) (List.cons_ne_nil a rest).symm
  | polls idle _ _ _ wait => exact absurd wait (notWait idle)

/-! ### Power-on reset (R291) -/

/-- The power-on reset is performed in its turn, in any state (R8). -/
theorem step_powerOn {s : State} {rest : List Turn} (on : s.schedule = .powerOn :: rest) :
    step s = .next (State.powerOn { s with schedule := rest }) := by
  simp only [step, on]

/-- Settles O48: the registers as an SRESET leaves them, with op memory and TRACE empty. -/
theorem powerOnResets : Obligations.PowerOnResets := by
  intro s rest on
  exact ⟨_, step_powerOn on, rfl, rfl, rfl, rfl, rfl, rfl, rfl, rfl, rfl, rfl, rfl, rfl, rfl, rfl, rfl, rfl, rfl, rfl⟩

end Sys2Proof.Machine
end
